-- ==== Sys2Proof/Word.lean ====
section
/-! DEFINITION. The word types of 00_scope.md rule R8: bits are numbered from 0 at the least significant bit. -/

namespace Sys2Proof

/-- A byte is 8 bits (R8). -/
abbrev Byte := BitVec 8

/-- A 32-bit pattern: an `int32`, a binary32 or a transport status (R7 `VALUE_BITS`, `STATUS_BITS`, `FLOAT`). -/
abbrev Word := BitVec 32

/-- A command word `CMD[39:0]` (30_encoding.md rule R60). -/
abbrev Command := BitVec 40

/-- A resolved bus address, `ADDR_BITS` = 7 (R7, 10_state.md rule R12). -/
abbrev BusAddr := BitVec 7

/-- A response word `RSP[65:0]` (30_encoding.md rule R65). -/
abbrev ResponseWord := BitVec 66

end Sys2Proof
end

