-- ==== Sys2Proof/Config.lean ====
section
/-! DEFINITION. The parameters of 00_scope.md rule R7 that the spec fixes, the defaults of the open ones, and the
free values (constants without a body: nothing can be proved of what they are). -/

namespace Sys2Proof

/-! ### Fixed parameters (R7) -/

/-- `SCALE`: units of the external temperature value per degree Celsius. -/
def Config.scale : Nat := 10000

/-- `FRAC_W`: the weights of fraction byte bits 7, 6, 5, 4. -/
def Config.weightHalf : Nat := 5000
def Config.weightQuarter : Nat := 2500
def Config.weightEighth : Nat := 1250
def Config.weightSixteenth : Nat := 625

/-- `HALF`: the threshold of the write path's half-degree flag. -/
def Config.half : Int := 5000

/-- `ADDR_BASE`, the default of the open parameter (R7, D10, G1): `0b1001`. The value in use is a field of State, so
a claim about every state quantifies over it. -/
def Config.addrBaseDefault : BitVec 4 := 0b1001#4

/-! ### Free values

Each is applied to a counter in State that every draw advances, or to the operand it depends on. -/

/-- The oracle's status for a transaction (20_memory.md rule R33); `none`: the transport never answers
(70_reset_and_hazards.md rule R178). Log entry 4. -/
opaque Config.busStatus : Nat → Option Word

/-- The oracle's two bytes for a read, in bus order (R32, R33). Log entry 4. -/
opaque Config.busData : Nat → Byte × Byte

/-- A 32-bit `any`: the `result` of a response whose kind is not OK (30_encoding.md rule R67). Log entry 9. -/
opaque Config.freeWord : Nat → Word

/-- An `any` for the scratch buffer (10_state.md rules R13, R21). Log entry 10. -/
opaque Config.freeScratch : Nat → Byte × Byte × Byte

/-- An `any` for `H.ADDR` after a reset request (R21). Log entry 6. -/
opaque Config.freeAddr : Nat → BusAddr

/-- `F2V` where the parameter is neither the default nor the exact product (R7, 40_codec_temperature.md rule R101);
`none` is `invalid`. Log entry 8. -/
opaque Config.replacedF2V : Word → Option Word

/-- `UNBOUND_CODE` (R7, D25), open: the number a one-integer software status uses for UnboundDevice. -/
opaque Config.unboundCode : Word

end Sys2Proof
end

