-- ==== Sys2Proof/Syntax.lean ====
section
/-! DEFINITION. The eleven operations of 30_encoding.md rule R62 as syntax, one constructor per row of spec/opcode_table.json. -/

namespace Sys2Proof

/-- The four registers of the sensor (10_state.md rule R16), named by the register selector `sel` and by the
register-select byte (20_memory.md rule R35). -/
inductive Sel where
  | ambient
  | config
  | hyst
  | limit
  deriving DecidableEq, Repr, Inhabited

/-- An operation with its operands, each as it stands in the `arg` bits of rule R64. -/
inductive Instr where
  /-- INIT low (R121). -/
  | init (low : BitVec 3)
  /-- RDTEMP reg (R122). -/
  | rdtemp (sel : Sel)
  /-- RDTEMPF reg (R123). -/
  | rdtempf (sel : Sel)
  /-- WRTEMP reg, value (R124): `value` an `int32`. -/
  | wrtemp (sel : Sel) (value : Word)
  /-- WRTEMPF reg, f (R125): `f` a binary32 pattern. -/
  | wrtempf (sel : Sel) (f : Word)
  /-- RDCFG (R126). -/
  | rdcfg
  /-- WRCFG raw (R127). -/
  | wrcfg (raw : Byte)
  /-- DECTEMP b0, b1 (R90). -/
  | dectemp (b0 b1 : Byte)
  /-- ENCTEMP value (R94): `value` an `int32`. -/
  | enctemp (value : Word)
  /-- DECCFG raw (R110). -/
  | deccfg (raw : Byte)
  /-- ENCCFG rec (R111): `packed` is the packed record of rule R77. -/
  | enccfg (packed : Byte)
  deriving DecidableEq, Repr

end Sys2Proof
end

