-- ==== Sys2Proof/Machine/State.lean ====
section
/-! DEFINITION. The state of the block, its ports and its environment, as plain data, and the state after reset
(10_state.md, 20_memory.md section 9, 70_reset_and_hazards.md section 1). -/

namespace Sys2Proof.Machine

/-! ### The handle (10_state.md rules R10 to R13) -/

/-- `H.SCRATCH[0]` to `H.SCRATCH[2]` (R13). -/
structure Scratch where
  b0 : Byte
  b1 : Byte
  b2 : Byte
  deriving DecidableEq, Repr

/-- The device handle `H`, the block's whole state (R10). -/
structure Handle where
  /-- `H.BOUND` (R11). -/
  bound : Bool
  /-- `H.ADDR` (R12). -/
  addr : BusAddr
  /-- `H.SCRATCH` (R13). -/
  scratch : Scratch
  deriving DecidableEq, Repr

/-! ### Parameters that the spec leaves open (00_scope.md rule R7) -/

/-- Which `F2V` the block is built with (R7, 40_codec_temperature.md rule R101). -/
inductive F2VChoice where
  /-- The default: the binary32 product, rounded to nearest even, then truncated. -/
  | roundedProduct
  /-- "the one alternative with real support": the exact product, then truncated. -/
  | exactProduct
  /-- Any other function: the opaque `Config.replacedF2V`. -/
  | replaced
  deriving DecidableEq, Repr

/-- The parameters in use; no step changes them. -/
structure Params where
  /-- `ADDR_BASE`. -/
  addrBase : BitVec 4
  /-- `F2V`. -/
  f2v : F2VChoice
  deriving DecidableEq, Repr

/-! ### The bus (20_memory.md rules R31 to R34) -/

/-- A transaction the block asks of the transport. -/
inductive Request where
  /-- `BusWrite(addr, bytes)` (R31). -/
  | write (addr : BusAddr) (bytes : List Byte)
  /-- `BusRead(addr, n)` (R32). -/
  | read (addr : BusAddr) (n : Nat)
  deriving DecidableEq, Repr

/-- What the environment does with a transaction (R33). The two bytes, in bus order, matter for a read only: a read
of one byte takes the first. -/
inductive Answer where
  /-- The transport never answers (70_reset_and_hazards.md rule R178). -/
  | silent
  /-- Status `st`, and for a read the bytes `d0`, `d1`. -/
  | answered (st : Word) (d0 d1 : Byte)
  deriving DecidableEq, Repr

/-- One entry of the bus trace (R34); `none` is a transaction without an answer (R172, R178). -/
inductive Transaction where
  /-- `W(addr, bytes) -> st`. -/
  | write (addr : BusAddr) (bytes : List Byte) (st : Option Word)
  /-- `R(addr, n) -> (st, bytes)`. -/
  | read (addr : BusAddr) (n : Nat) (got : Option (Word × List Byte))
  deriving DecidableEq, Repr

/-! ### The reference device (20_memory.md rules R45, R46) -/

/-- A two-byte temperature register: byte 0 sign and integer, byte 1 fraction (30_encoding.md rule R71). -/
structure TempReg where
  b0 : Byte
  b1 : Byte
  deriving DecidableEq, Repr

/-- `DEV` (R46). -/
structure Device where
  /-- `DEV.ADDR` (R45). -/
  addr : BusAddr
  /-- `DEV.PTR`, 2 bits. -/
  ptr : Sel
  /-- `DEV.AMBIENT`. -/
  ambient : TempReg
  /-- `DEV.CONFIG`. -/
  config : Byte
  /-- `DEV.HYST`. -/
  hyst : TempReg
  /-- `DEV.LIMIT`. -/
  limit : TempReg
  deriving DecidableEq, Repr

/-- What stands behind the transport. -/
inductive Env where
  /-- The free oracle (R33): first the answers listed here, in order, then free ones. -/
  | oracle (listed : List Answer)
  /-- The reference device, for simulation only (R45 to R52). -/
  | device (d : Device)
  deriving DecidableEq, Repr

/-! ### The ports -/

/-- What the outside does other than offering a command; it does not wait for the command port. -/
inductive Signal where
  /-- The caller takes the response that stands at the response port (R176). -/
  | take
  /-- The reset input is asserted (R172). -/
  | reset
  /-- The simulation puts a new measurement into `DEV.AMBIENT` (R51). -/
  | measurement (r : TempReg)
  deriving DecidableEq, Repr

/-- What arrives at the block from outside, besides the transport's answers. -/
inductive Input where
  /-- A command word offered at the command port (30_encoding.md rule R60). -/
  | command (w : Command)
  /-- Anything else. -/
  | signal (x : Signal)
  deriving DecidableEq, Repr

/-- Status kinds (30_encoding.md rule R66). -/
inductive Kind where
  | ok
  | unbound
  | transport
  | illegal
  deriving DecidableEq, Repr

/-- A response (30_encoding.md rule R65). -/
structure Response where
  kind : Kind
  code : Word
  result : Word
  deriving DecidableEq, Repr

/-- The exceptions of 60_exceptions.md rule R150: operations that end early with a response. -/
inductive Exception where
  /-- R151. -/
  | unboundDevice
  /-- R152, with the transport's return value. -/
  | transportFailure (st : Word)
  /-- R153. -/
  | illegalCommand
  deriving DecidableEq, Repr

/-! ### The whole -/

/-- The machine. `handle` is the block's own state (R10); `params` is fixed; the other fields are its ports, the
record of the run (70_reset_and_hazards.md rule R187) and the environment. -/
structure State where
  /-- `H`. -/
  handle : Handle
  /-- The open parameters of rule R7. -/
  params : Params
  /-- What the outside has offered and the block has not yet accepted, oldest first (R176). -/
  inputs : List Input
  /-- An operation is in flight and its last transaction has no answer (R23, R176, R178). -/
  busy : Bool
  /-- The response that stands at the response port and has not been taken (R176). -/
  pending : Option Response
  /-- The responses so far, in order (R187). -/
  responses : List Response
  /-- The bus trace so far, in order (R34). -/
  trace : List Transaction
  /-- The environment (R33, R45). -/
  env : Env
  /-- The model's own: which free value is drawn next. -/
  fresh : Nat
  deriving DecidableEq, Repr

/-- The state after construction (R21, R170): unbound, no command in flight, no transaction issued. The spec gives
`H.ADDR` and `H.SCRATCH` no value; DESIGN CHOICE zero (log entry 7). The environment is the free oracle. -/
def State.reset : State where
  handle := { bound := false, addr := 0#7, scratch := { b0 := 0#8, b1 := 0#8, b2 := 0#8 } }
  params := { addrBase := Config.addrBaseDefault, f2v := .roundedProduct }
  inputs := []
  busy := false
  pending := none
  responses := []
  trace := []
  env := .oracle []
  fresh := 0

/-- Reasons the machine stops with a fault. There is none: every exception of 60_exceptions.md is a response after
which the block goes on (R150, R159), and nothing else raises anything (R154). A type without constructors says that
no step faults. -/
inductive Fault where
  deriving DecidableEq, Repr

/-- Reasons a step has no meaning. -/
inductive Refusal where
  /-- Raised by an arm of `exec` for an instruction without a meaning; no arm does. Safe. -/
  | notModelled (mnemonic : String)
  /-- Raised by `fetch` when reset is asserted while an operation is in flight: "a model refuses such a run"
  (R172, U17). Safe. -/
  | resetInFlight
  deriving DecidableEq, Repr

end Sys2Proof.Machine
end

