-- ==== Sys2Proof/Machine/Flags.lean ====
section
/-! DEFINITION. The block has no flags, condition codes or predicates (10_state.md rule R20); the status of an
operation stands in its response. This file computes the status fields of 30_encoding.md rules R65 and R66. -/

namespace Sys2Proof.Machine

/-- The number of a status kind (R66). -/
def kindCode : Kind → BitVec 2
  | .ok => 0#2
  | .unbound => 1#2
  | .transport => 2#2
  | .illegal => 3#2

/-- The kind an exception reports (60_exceptions.md rule R150). -/
def exceptionKind : Exception → Kind
  | .unboundDevice => .unbound
  | .transportFailure _ => .transport
  | .illegalCommand => .illegal

/-- The code an exception reports: the transport's return value "unmodified", else 0 (R150, R152). -/
def exceptionCode : Exception → Word
  | .unboundDevice => 0#32
  | .transportFailure st => st
  | .illegalCommand => 0#32

/-- The response word `kind ++ code ++ result` (R65). -/
def responseWord (r : Response) : ResponseWord := kindCode r.kind ++ r.code ++ r.result

/-- The one-integer status of a software wrapper (92_eei_decisions.md D25): OK is 0, TRANSPORT its code, UNBOUND the
open parameter `UNBOUND_CODE`. D25 gives ILLEGAL no number. -/
def softwareStatus (r : Response) : Option Word :=
  match r.kind with
  | .ok => some 0#32
  | .unbound => some Config.unboundCode
  | .transport => some r.code
  | .illegal => none

end Sys2Proof.Machine
end

