-- ==== Sys2Proof/WellFormed.lean ====
section
/-! DEFINITION. Which terms of `Instr` a legal command word can stand for (30_encoding.md rule R63). -/

namespace Sys2Proof

/-- The selector values a temperature operation may carry: Ambient, Hysteresis, Limit-Set (R63). The value 1
(Configuration) "is not a RegisterSelector value". -/
def Sel.isTemperature : Sel → Bool
  | .ambient => true
  | .config => false
  | .hyst => true
  | .limit => true

/-- Rule R63 for every operation; the operands' widths are in the types. -/
def Instr.wellFormed : Instr → Bool
  | .init _ => true
  | .rdtemp sel => sel.isTemperature
  | .rdtempf sel => sel.isTemperature
  | .wrtemp sel _ => sel.isTemperature
  | .wrtempf sel _ => sel.isTemperature
  | .rdcfg => true
  | .wrcfg _ => true
  | .dectemp _ _ => true
  | .enctemp _ => true
  | .deccfg _ => true
  | .enccfg _ => true

end Sys2Proof
end

