-- ==== Sys2Proof/Decode.lean ====
section
/-! DEFINITION. The command word: encoding and total decoding (30_encoding.md rules R60 to R64, R68, R81). -/

namespace Sys2Proof

/-- Why a command word is illegal: the four clauses of rule R68. -/
inductive DecodeError where
  /-- (a) `rsv` is not `00`. -/
  | reservedField
  /-- (b) `op` is 7 or 12 to 15. -/
  | reservedOperation
  /-- (c) `sel` does not fit the operation (R63). -/
  | selectorNotAllowed
  /-- (d) a bit of `arg` that R64 does not list is set. -/
  | strayOperandBit
  deriving DecidableEq, Repr

/-! ### The fields of rule R60 -/

def rsvField (w : Command) : BitVec 2 := w.extractLsb' 38 2
def opField (w : Command) : BitVec 4 := w.extractLsb' 34 4
def selField (w : Command) : BitVec 2 := w.extractLsb' 32 2
def argField (w : Command) : Word := w.extractLsb' 0 32

/-- The opcode byte `rsv ++ op ++ sel` (R61). -/
def opcodeByte (w : Command) : Byte := w.extractLsb' 32 8

/-- The number of a selector, the same in `sel` and on the wire (R63, R35). -/
def Sel.code : Sel → BitVec 2
  | .ambient => 0#2
  | .config => 1#2
  | .hyst => 2#2
  | .limit => 3#2

/-- The selector of a number; `sel` is 2 bits wide, so every value names one (R61). -/
def Sel.ofCode (c : BitVec 2) : Sel :=
  if c = 0#2 then .ambient else if c = 1#2 then .config else if c = 2#2 then .hyst else .limit

/-! ### Decoding -/

/-- Accept an operation whose `sel` must be `want` and whose `arg` bits from `used` upward must be 0 (R63, R64, R68). -/
def fixedSelector (want : BitVec 2) (used : Nat) (w : Command) (i : Instr) : Except DecodeError Instr :=
  if selField w = want then
    if argField w >>> used = 0#32 then .ok i else .error .strayOperandBit
  else .error .selectorNotAllowed

/-- Accept a temperature operation: `sel` 0, 2 or 3, and the `arg` bits from `used` upward 0 (R63, R64, R68). -/
def temperatureSelector (used : Nat) (w : Command) (i : Sel → Instr) : Except DecodeError Instr :=
  if (Sel.ofCode (selField w)).isTemperature then
    if argField w >>> used = 0#32 then .ok (i (Sel.ofCode (selField w))) else .error .strayOperandBit
  else .error .selectorNotAllowed

/-- The algorithm of rule R81: read `rsv`, `op`, `sel`; look up `op` in R62; check `sel` by R63; check the unused
`arg` bits by R64. -/
def decode (w : Command) : Except DecodeError Instr :=
  if rsvField w = 0#2 then
    match (opField w).toNat with
    | 0 => fixedSelector 0#2 3 w (.init ((argField w).extractLsb' 0 3))
    | 1 => temperatureSelector 0 w .rdtemp
    | 2 => temperatureSelector 0 w .rdtempf
    | 3 => temperatureSelector 32 w (fun sel => .wrtemp sel (argField w))
    | 4 => temperatureSelector 32 w (fun sel => .wrtempf sel (argField w))
    | 5 => fixedSelector 1#2 0 w .rdcfg
    | 6 => fixedSelector 1#2 8 w (.wrcfg ((argField w).extractLsb' 0 8))
    | 8 => fixedSelector 0#2 16 w (.dectemp ((argField w).extractLsb' 8 8) ((argField w).extractLsb' 0 8))
    | 9 => fixedSelector 0#2 32 w (.enctemp (argField w))
    | 10 => fixedSelector 0#2 8 w (.deccfg ((argField w).extractLsb' 0 8))
    | 11 => fixedSelector 0#2 8 w (.enccfg ((argField w).extractLsb' 0 8))
    | _ => .error .reservedOperation
  else .error .reservedField

/-- The decoder as the opcode table numbers an instruction's bits: the 40-bit word is one word, so bit 0 of `w` is
`CMD[0]`; `nbits` is the row's length. -/
def decodeTableWord (nbits w : Nat) : Option Instr :=
  if nbits ≤ 40 ∧ w < 2 ^ 40 then (decode (BitVec.ofNat 40 w)).toOption else none

/-! ### Encoding -/

/-- `rsv ++ op ++ sel ++ arg` with `rsv = 00` (R60). -/
def commandWord (op : BitVec 4) (sel : BitVec 2) (arg : Word) : Command :=
  0#2 ++ op ++ sel ++ arg

/-- The command word of an operation (R62, R64). -/
def encode : Instr → Command
  | .init low => commandWord 0#4 0#2 (0#29 ++ low)
  | .rdtemp sel => commandWord 1#4 sel.code 0#32
  | .rdtempf sel => commandWord 2#4 sel.code 0#32
  | .wrtemp sel value => commandWord 3#4 sel.code value
  | .wrtempf sel f => commandWord 4#4 sel.code f
  | .rdcfg => commandWord 5#4 1#2 0#32
  | .wrcfg raw => commandWord 6#4 1#2 (0#24 ++ raw)
  | .dectemp b0 b1 => commandWord 8#4 0#2 (0#16 ++ b0 ++ b1)
  | .enctemp value => commandWord 9#4 0#2 value
  | .deccfg raw => commandWord 10#4 0#2 (0#24 ++ raw)
  | .enccfg packed => commandWord 11#4 0#2 (0#24 ++ packed)

/-! ### The opcode table (opcode_table.json) -/

/-- `match` of the operation's row. -/
def rowMatch : Instr → Command
  | .init _ => 0x0000000000#40
  | .rdtemp _ => 0x0400000000#40
  | .rdtempf _ => 0x0800000000#40
  | .wrtemp _ _ => 0x0C00000000#40
  | .wrtempf _ _ => 0x1000000000#40
  | .rdcfg => 0x1500000000#40
  | .wrcfg _ => 0x1900000000#40
  | .dectemp _ _ => 0x2000000000#40
  | .enctemp _ => 0x2400000000#40
  | .deccfg _ => 0x2800000000#40
  | .enccfg _ => 0x2C00000000#40

/-- `mask` of the operation's row. -/
def rowMask : Instr → Command
  | .init _ => 0xFFFFFFFFF8#40
  | .rdtemp _ => 0xFCFFFFFFFF#40
  | .rdtempf _ => 0xFCFFFFFFFF#40
  | .wrtemp _ _ => 0xFC00000000#40
  | .wrtempf _ _ => 0xFC00000000#40
  | .rdcfg => 0xFFFFFFFFFF#40
  | .wrcfg _ => 0xFFFFFFFF00#40
  | .dectemp _ _ => 0xFFFFFF0000#40
  | .enctemp _ => 0xFF00000000#40
  | .deccfg _ => 0xFFFFFFFF00#40
  | .enccfg _ => 0xFFFFFFFF00#40

/-- The word carries the fixed bits of the operation's row. -/
def fitsRow (i : Instr) (w : Command) : Bool := w &&& rowMask i == rowMatch i

/-- The mnemonic of rule R62. -/
def mnemonic : Instr → String
  | .init _ => "INIT"
  | .rdtemp _ => "RDTEMP"
  | .rdtempf _ => "RDTEMPF"
  | .wrtemp _ _ => "WRTEMP"
  | .wrtempf _ _ => "WRTEMPF"
  | .rdcfg => "RDCFG"
  | .wrcfg _ => "WRCFG"
  | .dectemp _ _ => "DECTEMP"
  | .enctemp _ => "ENCTEMP"
  | .deccfg _ => "DECCFG"
  | .enccfg _ => "ENCCFG"

end Sys2Proof
end

