-- ==== Sys2Proof/Machine/Operands.lean ====
section
/-! DEFINITION. Operand forms and the primitives of 00_scope.md rule R9 that the rules compute with. The command's
operands are the `arg` slices of 30_encoding.md rule R64, taken in `decode`; here stand the values put together or
cut apart from them (R82). -/

namespace Sys2Proof.Machine

/-! ### Primitives of rule R9 -/

/-- `quot(a, b)`: truncated toward zero. -/
def quot (a b : Int) : Int := a.tdiv b

/-- `rem(a, b) = a - quot(a, b) * b`. -/
def rem (a b : Int) : Int := a - quot a b * b

/-- `low8(n)`: the low 8 bits of the two's complement of `n`. -/
def low8 (n : Int) : Byte := BitVec.ofInt 8 n

/-- `to_int32(n)`. -/
def toInt32 (n : Int) : Word := BitVec.ofInt 32 n

/-- A 32-bit pattern read as an `int32` (R8). -/
def int32 (w : Word) : Int := w.toInt

/-- `zext_32` of a byte. -/
def zext32 (b : Byte) : Word := b.setWidth 32

/-! ### The register selector and the bus address -/

/-- The register-select byte `zext_8(sel)` (30_encoding.md rule R69, 20_memory.md rule R35). -/
def selectByte (sel : Sel) : Byte := sel.code.setWidth 8

/-- The width in bytes of a sensor register (20_memory.md rule R36). -/
def registerWidth : Sel → Nat
  | .ambient => 2
  | .config => 1
  | .hyst => 2
  | .limit => 2

/-- `ADDR_BASE ++ low` (42_bus_operations.md rule R121, 30_encoding.md rule R82). -/
def busAddress (base : BitVec 4) (low : BitVec 3) : BusAddr := base ++ low

/-! ### The scratch buffer (10_state.md rule R13) -/

/-- `H.SCRATCH[0..]` as a byte sequence. -/
def Scratch.bytes (c : Scratch) : List Byte := [c.b0, c.b1, c.b2]

/-- `H.SCRATCH[i] <- b`; the buffer has three bytes. -/
def Scratch.put (c : Scratch) (i : Nat) (b : Byte) : Scratch :=
  match i with
  | 0 => { c with b0 := b }
  | 1 => { c with b1 := b }
  | 2 => { c with b2 := b }
  | _ => c

/-- `H.SCRATCH[i..] <- v`. -/
def Scratch.putAll (c : Scratch) (i : Nat) : List Byte → Scratch
  | [] => c
  | b :: v => (c.put i b).putAll (i + 1) v

/-! ### The resolution mask -/

/-- The `ADC_RESOLUTION` code of a configuration byte, bits 6:5 (30_encoding.md rule R73). -/
def resolutionCode (raw : Byte) : BitVec 2 := raw.extractLsb' 5 2

/-- `FRACMASK(c)` (40_codec_temperature.md rule R103). -/
def fracMask (c : BitVec 2) : Byte :=
  match c.toNat with
  | 0 => 0x80#8
  | 1 => 0xC0#8
  | 2 => 0xE0#8
  | _ => 0xF0#8

end Sys2Proof.Machine
end

