-- ==== Sys2Proof/Machine/Ops.lean ====
section
/-! DEFINITION. The shared operations: the response, the exception, the scratch buffer, the bus transactions, the
register read and write sequences, the checks every command goes through, the signals, and taking the next input. -/

namespace Sys2Proof.Machine

/-! ### Responses and exceptions -/

/-- `respond(kind, code, result)` (00_scope.md rule R9): the response is recorded and stands at the response port until
the caller takes it (70_reset_and_hazards.md rule R176). -/
def respond (kind : Kind) (code result : Word) (s : State) : State :=
  { s with
    responses := s.responses ++ [{ kind := kind, code := code, result := result }]
    pending := some { kind := kind, code := code, result := result } }

/-- `respond(OK, 0, result)`. -/
def respondOk (result : Word) (s : State) : State := respond .ok 0#32 result s

/-- `raise`: take an exception (60_exceptions.md rules R150 to R153, R157). It saves nothing, changes no mode and
transfers control nowhere; the response carries kind and code, and `result = any`. There is no return from it (R159). -/
def raise (e : Exception) (s : State) : State :=
  respond (exceptionKind e) (exceptionCode e) (Config.freeWord s.fresh) { s with fresh := s.fresh + 1 }

/-! ### The scratch buffer -/

/-- `H.SCRATCH[i..] <- v`. -/
def putScratch (i : Nat) (v : List Byte) (s : State) : State :=
  { s with handle := { s.handle with scratch := s.handle.scratch.putAll i v } }

/-- The scratch buffer that the counter value `k` draws. -/
def drawnScratch (k : Nat) : Scratch :=
  { b0 := (Config.freeScratch k).1, b1 := (Config.freeScratch k).2.1, b2 := (Config.freeScratch k).2.2 }

/-- "After any bus operation its content is `any`" (10_state.md rule R13), also where it ends in an exception
(60_exceptions.md rule R157) or without a transaction. -/
def loseScratch (s : State) : State :=
  { s with handle := { s.handle with scratch := drawnScratch s.fresh }, fresh := s.fresh + 1 }

/-! ### The free oracle (20_memory.md rule R33) -/

/-- The answer to the next transaction: the first one listed, else a free one. -/
def oracleAnswer (listed : List Answer) (k : Nat) : Answer :=
  match listed with
  | a :: _ => a
  | [] =>
    match Config.busStatus k with
    | none => .silent
    | some st => .answered st (Config.busData k).1 (Config.busData k).2

/-! ### The reference device (20_memory.md rules R45 to R51) -/

/-- The transactions that the device takes, with status 0: one-byte writes of a select value (R47), register writes
of the register's width (R48, R49), reads (R50), each at its own address (R45). -/
def deviceTakes (d : Device) : Request → Bool
  | .write a [p] => a == d.addr && decide (p.toNat ≤ 3)
  | .write a [p, _] => a == d.addr && p == selectByte .config
  | .write a [p, _, _] =>
    a == d.addr && (p == selectByte .ambient || p == selectByte .hyst || p == selectByte .limit)
  | .write _ _ => false
  | .read a _ => a == d.addr

/-- The bytes of `REG(DEV.PTR)` in bus order (R50); a second byte that the register does not have is free. -/
def deviceData (d : Device) (k : Nat) : Byte × Byte :=
  match d.ptr with
  | .ambient => (d.ambient.b0, d.ambient.b1)
  | .config => (d.config, (Config.busData k).2)
  | .hyst => (d.hyst.b0, d.hyst.b1)
  | .limit => (d.limit.b0, d.limit.b1)

/-- A word that is not 0, and any such word. -/
def nonZero (w : Word) : Word := if w = 0#32 then 1#32 else w

/-- Status 0 and the device's bytes for a transaction it takes; otherwise a non-zero status and `any` bytes (R45, R49). -/
def deviceAnswer (d : Device) (q : Request) (k : Nat) : Answer :=
  if deviceTakes d q then .answered 0#32 (deviceData d k).1 (deviceData d k).2
  else .answered (nonZero (Config.freeWord k)) (Config.busData k).1 (Config.busData k).2

/-- A value for `DEV.AMBIENT` with the fraction bits outside the mask cleared (R51). -/
def masked (config : Byte) (r : TempReg) : TempReg := { r with b1 := r.b1 &&& fracMask (resolutionCode config) }

/-- `REG(p) <- r` for the temperature registers a write changes (R48, R49: Ambient is read-only). -/
def deviceStore (d : Device) (p : Sel) (r : TempReg) : Device :=
  match p with
  | .ambient => d
  | .config => d
  | .hyst => { d with hyst := r }
  | .limit => { d with limit := r }

/-- The selector that the low two bits of a select byte name. -/
def selectedBy (p : Byte) : Sel := Sel.ofCode (p.setWidth 2)

/-- The device after a transaction (R47 to R50): a write moves `DEV.PTR` and stores its payload; a write of
`DEV.CONFIG` clears the `DEV.AMBIENT` bits outside the new mask (R51). -/
def deviceAfter (d : Device) (q : Request) : Device :=
  if deviceTakes d q then
    match q with
    | .write _ [p] => { d with ptr := selectedBy p }
    | .write _ [_, c] => { d with ptr := .config, config := c, ambient := masked c d.ambient }
    | .write _ [p, b0, b1] => { deviceStore d (selectedBy p) { b0 := b0, b1 := b1 } with ptr := selectedBy p }
    | .write _ _ => d
    | .read _ _ => d
  else d

/-! ### Bus transactions (20_memory.md rules R31, R32, R34) -/

/-- The environment's answer to `q` in state `s`. -/
def environmentAnswer (q : Request) (s : State) : Answer :=
  match s.env with
  | .oracle listed => oracleAnswer listed s.fresh
  | .device d => deviceAnswer d q s.fresh

/-- The environment after `q`. -/
def environmentAfter (q : Request) (s : State) : Env :=
  match s.env with
  | .oracle listed => .oracle listed.tail
  | .device d => .device (deviceAfter d q)

/-- The status of an answer; `none` where there is no answer. -/
def answerStatus : Answer → Option Word
  | .silent => none
  | .answered st _ _ => some st

/-- What an answer gives a read of `n` bytes. -/
def answerData (n : Nat) : Answer → Option (Word × List Byte)
  | .silent => none
  | .answered st d0 d1 => some (st, [d0, d1].take n)

/-- The trace entry of a transaction and its answer (R34). -/
def traceEntry (q : Request) (a : Answer) : Transaction :=
  match q with
  | .write addr bytes => .write addr bytes (answerStatus a)
  | .read addr n => .read addr n (answerData n a)

/-- The state after the transaction `q`: answered by the environment and recorded in the bus trace. -/
def transact (q : Request) (s : State) : State :=
  { s with
    trace := s.trace ++ [traceEntry q (environmentAnswer q s)]
    env := environmentAfter q s
    fresh := s.fresh + 1 }

/-- How a sequence of transactions ends. -/
inductive Access (α : Type) where
  /-- Every transaction succeeded. -/
  | done (a : α)
  /-- A transaction returned a status other than 0: `raise TransportFailure(st)`. -/
  | failed (st : Word)
  /-- The transport has not answered (70_reset_and_hazards.md rule R178). -/
  | waiting

/-- `MemRead(sel, n)` (R37): select, then read; a failed select ends the sequence (D7). -/
def memRead (sel : Sel) (n : Nat) (s : State) : State × Access (Byte × Byte) :=
  let s0 := putScratch 0 [selectByte sel] s
  let select : Request := .write s0.handle.addr [s0.handle.scratch.b0]
  let s1 := transact select s0
  match environmentAnswer select s0 with
  | .silent => (s1, .waiting)
  | .answered st1 _ _ =>
    if st1 = 0#32 then
      let data : Request := .read s1.handle.addr n
      let s2 := transact data s1
      match environmentAnswer data s1 with
      | .silent => (s2, .waiting)
      | .answered st2 d0 d1 =>
        let s3 := putScratch 0 ([d0, d1].take n) s2
        if st2 = 0#32 then (s3, .done (d0, d1)) else (s3, .failed st2)
    else (s1, .failed st1)

/-- `MemWrite(sel, n, v)` with `n` the length of `v` (R38): the select byte and the payload in one transaction. -/
def memWrite (sel : Sel) (v : List Byte) (s : State) : State × Access Unit :=
  let s0 := putScratch 1 v (putScratch 0 [selectByte sel] s)
  let store : Request := .write s0.handle.addr (s0.handle.scratch.bytes.take (v.length + 1))
  let s1 := transact store s0
  match environmentAnswer store s0 with
  | .silent => (s1, .waiting)
  | .answered st _ _ => if st = 0#32 then (s1, .done ()) else (s1, .failed st)

/-- The end of a bus operation that used the bus: OK with its result, TransportFailure with the status (R152), or the
block stays busy, without a response, because the transport has not answered (R178). -/
def conclude {α : Type} (r : State × Access α) (result : α → Word) : State :=
  match r.2 with
  | .done a => respondOk (result a) (loseScratch r.1)
  | .failed st => raise (.transportFailure st) (loseScratch r.1)
  | .waiting => { r.1 with busy := true }

/-! ### The checks of 42_bus_operations.md rule R120 -/

/-- What every bus operation other than INIT does first: the legality of its selector, where an illegal command "has no
effect on `H`" (30_encoding.md rule R68), then `H.BOUND`. -/
def busOperation (legal : Bool) (body : State → State) (s : State) : Host.Outcome State Fault Refusal :=
  if legal then
    if s.handle.bound then .next (body s) else .next (raise .unboundDevice (loseScratch s))
  else .next (raise .illegalCommand s)

/-! ### The inputs -/

/-- The reset input (70_reset_and_hazards.md rules R170, R172, R173): the handle is unbound, `H.ADDR` and `H.SCRATCH`
unspecified, and the block ready, so that a response not yet taken is gone; the environment and the record of the run
are untouched. -/
def resetHandle (s : State) : State :=
  { s with
    handle := { bound := false, addr := Config.freeAddr s.fresh, scratch := drawnScratch s.fresh }
    pending := none
    fresh := s.fresh + 1 }

/-- A new measurement in `DEV.AMBIENT`, which keeps the invariant of 20_memory.md rule R51; nothing where the oracle
stands. -/
def newMeasurement (r : TempReg) (s : State) : State :=
  { s with
    env :=
      match s.env with
      | .oracle listed => .oracle listed
      | .device d => .device { d with ambient := masked d.config r } }

/-- The response port after the caller has taken the response (R176); nothing where none stands there. -/
def takeResponse (s : State) : State := { s with pending := none }

/-- What a signal does; a reset request while an operation is in flight does not come here. -/
def receive (x : Signal) (s : State) : State :=
  match x with
  | .take => takeResponse s
  | .reset => resetHandle s
  | .measurement r => newMeasurement r s

/-- The ready signal of the command port: "low from acceptance until the response has been taken" (R176). -/
def ready (s : State) : Bool := !s.busy && s.pending.isNone

/-- The oldest signal, and the inputs without it: the commands before it still wait, in order. -/
def firstSignal : List Input → Option (Signal × List Input)
  | [] => none
  | .signal x :: rest => some (x, rest)
  | .command w :: rest =>
    match firstSignal rest with
    | none => none
    | some (x, others) => some (x, .command w :: others)

/-- What the next step has to do. -/
inductive Fetched where
  /-- Run an accepted command in the state after its acceptance. -/
  | run (i : Instr) (s : State)
  /-- The step ends without running an operation. -/
  | settled (o : Host.Outcome State Fault Refusal)

/-- Take the oldest input of a block that is ready (R176; 42_bus_operations.md rule R120, first check). Nothing
offered: the block stays ready. An illegal word is answered ILLEGAL (60_exceptions.md rule R153). -/
def fetchReady (s : State) : Fetched :=
  match s.inputs with
  | [] => .settled (.next s)
  | .command w :: rest =>
    match decode w with
    | .ok i => .run i { s with inputs := rest }
    | .error _ => .settled (.next (raise .illegalCommand { s with inputs := rest }))
  | .signal x :: rest => .settled (.next (receive x { s with inputs := rest }))

/-- While the command port is not ready: a command offered waits, "not lost and not merged" (R176), and the oldest
signal is received. Where the transport does not answer, the wait has no end (R178), and a reset request has no meaning
(R172, U17), also behind other inputs, since it can be asserted at any time. -/
def fetchWaiting (s : State) : Fetched :=
  if s.busy = true ∧ Input.signal .reset ∈ s.inputs then .settled (.refused .resetInFlight)
  else
    match firstSignal s.inputs with
    | none => .settled (.next s)
    | some (x, rest) => .settled (.next (receive x { s with inputs := rest }))

/-- What the next step has to do. -/
def fetch (s : State) : Fetched := if ready s then fetchReady s else fetchWaiting s

/-- The command `w` offered ahead of every other input, to a block that is ready for it. -/
def offerFirst (w : Command) (s : State) : State :=
  { s with inputs := .command w :: s.inputs, busy := false, pending := none }

end Sys2Proof.Machine
end

