-- ==== Sys2Proof/Machine/ConfigCodec.lean ====
section
/-! DEFINITION. The configuration codec: DECCFG and ENCCFG (41_codec_config.md), with the register format of
30_encoding.md rule R73 and the packings of rules R77 and R78. -/

namespace Sys2Proof.Machine

/-- The record `CfgRec`, in the source's order of members (R77). -/
structure CfgRec where
  oneShot : Bool
  resolution : BitVec 2
  faultQueue : BitVec 2
  alertPolarity : Bool
  intMode : Bool
  shutdown : Bool
  deriving DecidableEq, Repr

/-- `DecCfg(raw)` (R110, R73). -/
def decCfg (raw : Byte) : CfgRec where
  oneShot := raw.getLsbD 7
  resolution := raw.extractLsb' 5 2
  faultQueue := raw.extractLsb' 3 2
  alertPolarity := raw.getLsbD 2
  intMode := raw.getLsbD 1
  shutdown := raw.getLsbD 0

/-- `EncCfg(rec)` (R111, R73). -/
def encCfg (c : CfgRec) : Byte :=
  BitVec.ofBool c.oneShot ++ c.resolution ++ c.faultQueue ++ BitVec.ofBool c.alertPolarity
    ++ BitVec.ofBool c.intMode ++ BitVec.ofBool c.shutdown

/-- The packed record `rec[7:0]`: the members from bit 0 upward (R77). -/
def packCfg (c : CfgRec) : Byte :=
  BitVec.ofBool c.shutdown ++ BitVec.ofBool c.intMode ++ BitVec.ofBool c.alertPolarity
    ++ c.faultQueue ++ c.resolution ++ BitVec.ofBool c.oneShot

/-- The record of a packed `rec[7:0]` (R77). -/
def unpackCfg (p : Byte) : CfgRec where
  oneShot := p.getLsbD 0
  resolution := p.extractLsb' 1 2
  faultQueue := p.extractLsb' 3 2
  alertPolarity := p.getLsbD 5
  intMode := p.getLsbD 6
  shutdown := p.getLsbD 7

/-- `RESBITS(c) = 9 + c` (R74, R114). -/
def resBits (c : BitVec 2) : Nat := 9 + c.toNat

/-- `FAULTCOUNT(c) = [1, 2, 4, 6][c]` (R75, R114). -/
def faultCount (c : BitVec 2) : Nat :=
  match c.toNat with
  | 0 => 1
  | 1 => 2
  | 2 => 4
  | _ => 6

/-- `CFGRESULT(raw)` (R78). -/
def cfgResult (raw : Byte) : Word :=
  0#9 ++ BitVec.ofNat 3 (faultCount (decCfg raw).faultQueue) ++ BitVec.ofNat 4 (resBits (decCfg raw).resolution)
    ++ packCfg (decCfg raw) ++ raw

/-- DECCFG (R110, R128). -/
def execDeccfg (raw : Byte) (s : State) : Host.Outcome State Fault Refusal :=
  .next (respondOk (cfgResult raw) s)

/-- ENCCFG (R111, R128). -/
def execEnccfg (packed : Byte) (s : State) : Host.Outcome State Fault Refusal :=
  .next (respondOk (zext32 (encCfg (unpackCfg packed))) s)

end Sys2Proof.Machine
end

