-- ==== Sys2Proof/Machine/Float32.lean ====
section
/-! DEFINITION. IEEE 754 binary32 (00_scope.md rule R7 `FLOAT`, 93_implementation_defined.md G5) and the two
conversions of 40_codec_temperature.md section 4. Every finite binary32 magnitude is a whole number of units of
2^-149, so magnitudes are natural numbers of such units. -/

namespace Sys2Proof.Machine

/-! ### The format -/

def floatNegative (x : Word) : Bool := x.getLsbD 31
def floatExponent (x : Word) : Nat := (x.extractLsb' 23 8).toNat
def floatFraction (x : Word) : Nat := (x.extractLsb' 0 23).toNat

/-- A finite number: the exponent field is not all ones. -/
def floatFinite (x : Word) : Bool := floatExponent x != 255

/-- The magnitude of a finite number in units of 2^-149; subnormals have exponent field 0. -/
def floatUnits (x : Word) : Nat :=
  if floatExponent x = 0 then floatFraction x
  else (2 ^ 23 + floatFraction x) * 2 ^ (floatExponent x - 1)

/-- `a / b` rounded to the nearest integer, ties to even. -/
def roundNearestEven (a b : Nat) : Nat :=
  if 2 * (a % b) < b then a / b
  else if b < 2 * (a % b) then a / b + 1
  else a / b + a / b % 2

/-- `a / b` units rounded to the 24 significant bits of binary32, or to a whole unit below them. -/
def roundUnits (a b : Nat) : Nat :=
  roundNearestEven a (b * 2 ^ (Nat.log2 (a / b) - 23)) * 2 ^ (Nat.log2 (a / b) - 23)

/-- The pattern of a magnitude that binary32 holds; infinity from 2^128 (2^277 units) on. -/
def packFloat (negative : Bool) (units : Nat) : Word :=
  let k := Nat.log2 units - 23
  BitVec.ofBool negative ++
    (if 254 ≤ k then 0x7F800000#31 else BitVec.ofNat 31 (units / 2 ^ k + k * 2 ^ 23))

/-! ### The conversions -/

/-- `V2F(value)`: the binary32 number nearest to `value / 10000`; zero gives `+0.0` (R100). -/
def v2f (value : Int) : Word :=
  packFloat (decide (value < 0)) (roundUnits (value.natAbs * 2 ^ 149) Config.scale)

/-- The binary32 product `f * 10000.0`, rounded to nearest even (R101); a NaN or an infinity stays one. -/
def scaledProduct (f : Word) : Word :=
  if floatFinite f then packFloat (floatNegative f) (roundUnits (floatUnits f * Config.scale) 1) else f

/-- A magnitude in units of 2^-149 with a sign, as an `int32`, its fraction discarded; `none` (`invalid`) from 2^31 on
(R101). -/
def truncateUnits (negative : Bool) (units : Nat) : Option Word :=
  if 2 ^ 31 * 2 ^ 149 ≤ units then none
  else some (BitVec.ofInt 32 (if negative then -((units / 2 ^ 149 : Nat) : Int) else ((units / 2 ^ 149 : Nat) : Int)))

/-- The default `F2V` (R101): the rounded product, then truncated toward zero. -/
def f2vRounded (f : Word) : Option Word :=
  let p := scaledProduct f
  if floatFinite p then truncateUnits (floatNegative p) (floatUnits p) else none

/-- The alternative of R101: the exact product, then truncated toward zero. -/
def f2vExact (f : Word) : Option Word :=
  if floatFinite f then truncateUnits (floatNegative f) (floatUnits f * Config.scale) else none

/-- The parameter `F2V` (R7): `none` is `invalid`. -/
def f2v (c : F2VChoice) (f : Word) : Option Word :=
  match c with
  | .roundedProduct => f2vRounded f
  | .exactProduct => f2vExact f
  | .replaced => Config.replacedF2V f

/-- The binary32 number nearest to a decimal real `num / den` (30_encoding.md rule R79, operand `f`). -/
def floatOfRatio (negative : Bool) (num den : Nat) : Word := packFloat negative (roundUnits (num * 2 ^ 149) den)

end Sys2Proof.Machine
end

