-- ==== Sys2Proof/Machine/TemperatureCodec.lean ====
section
/-! DEFINITION. The temperature codec: DECTEMP and ENCTEMP (40_codec_temperature.md). -/

namespace Sys2Proof.Machine

/-- The fraction byte's contribution: bits 7 to 4 weigh 5000, 2500, 1250, 625; bits 3 to 0 nothing (R90, R93). -/
def fractionValue (b1 : Byte) : Nat :=
  (if b1.getLsbD 7 then Config.weightHalf else 0)
    + (if b1.getLsbD 6 then Config.weightQuarter else 0)
    + (if b1.getLsbD 5 then Config.weightEighth else 0)
    + (if b1.getLsbD 4 then Config.weightSixteenth else 0)

/-- `abs` of rule R90: the magnitude over the whole two-byte quantity. -/
def decTempMagnitude (b0 b1 : Byte) : Nat := (b0.extractLsb' 0 7).toNat * Config.scale + fractionValue b1

/-- `DecTemp(b0, b1)` (R90): sign-magnitude, in units of 0.0001 degree. -/
def decTemp (b0 b1 : Byte) : Int :=
  if b0.getLsbD 7 then -(decTempMagnitude b0 b1 : Int) else (decTempMagnitude b0 b1 : Int)

/-- Byte 0 of `EncTemp(value)` (R94, R95): the low 8 bits of the truncated quotient. -/
def encTempByte0 (value : Int) : Byte := low8 (quot value Config.scale)

/-- Byte 1 of `EncTemp(value)` (R94): the half-degree flag. -/
def encTempByte1 (value : Int) : Byte := if Config.half ≤ rem value Config.scale then 0x80#8 else 0x00#8

/-- `EncTemp(value)` (R94). -/
def encTemp (value : Int) : Byte × Byte := (encTempByte0 value, encTempByte1 value)

/-- DECTEMP (R90, R128). -/
def execDectemp (b0 b1 : Byte) (s : State) : Host.Outcome State Fault Refusal :=
  .next (respondOk (toInt32 (decTemp b0 b1)) s)

/-- ENCTEMP (R94, R128): `result[15:8] = b0`, `result[7:0] = b1`. -/
def execEnctemp (value : Word) (s : State) : Host.Outcome State Fault Refusal :=
  .next (respondOk (((encTemp (int32 value)).1 ++ (encTemp (int32 value)).2).setWidth 32) s)

end Sys2Proof.Machine
end

