-- ==== Sys2Proof/Machine/BusOperations.lean ====
section
/-! DEFINITION. The seven bus operations (42_bus_operations.md rules R121 to R127). -/

namespace Sys2Proof.Machine

/-- INIT (R121): binds, whether or not the handle is bound already; no I/O. -/
def execInit (low : BitVec 3) (s : State) : Host.Outcome State Fault Refusal :=
  .next (respondOk 0#32
    (loseScratch { s with handle := { s.handle with addr := busAddress s.params.addrBase low, bound := true } }))

/-- RDTEMP (R122). -/
def execRdtemp (sel : Sel) (s : State) : Host.Outcome State Fault Refusal :=
  busOperation sel.isTemperature (fun s => conclude (memRead sel 2 s) (fun d => toInt32 (decTemp d.1 d.2))) s

/-- RDTEMPF (R123). -/
def execRdtempf (sel : Sel) (s : State) : Host.Outcome State Fault Refusal :=
  busOperation sel.isTemperature (fun s => conclude (memRead sel 2 s) (fun d => v2f (decTemp d.1 d.2))) s

/-- Send a temperature to a writable register (R124, after the guard). -/
def writeTemperature (sel : Sel) (value : Int) (s : State) : State :=
  conclude (memWrite sel [(encTemp value).1, (encTemp value).2] s) (fun _ => 0#32)

/-- WRTEMP (R124): Ambient answers OK and transmits nothing. -/
def execWrtemp (sel : Sel) (value : Word) (s : State) : Host.Outcome State Fault Refusal :=
  busOperation sel.isTemperature
    (fun s => if sel = .ambient then respondOk 0#32 (loseScratch s) else writeTemperature sel (int32 value) s) s

/-- WRTEMPF (R125): the guard, then the conversion, then as WRTEMP. -/
def execWrtempf (sel : Sel) (f : Word) (s : State) : Host.Outcome State Fault Refusal :=
  busOperation sel.isTemperature
    (fun s =>
      if sel = .ambient then respondOk 0#32 (loseScratch s)
      else
        match f2v s.params.f2v f with
        | none => raise .illegalCommand (loseScratch s)
        | some v => writeTemperature sel (int32 v) s) s

/-- RDCFG (R126). -/
def execRdcfg (s : State) : Host.Outcome State Fault Refusal :=
  busOperation true (fun s => conclude (memRead .config 1 s) (fun d => cfgResult d.1)) s

/-- WRCFG (R127): the byte is sent as given. -/
def execWrcfg (raw : Byte) (s : State) : Host.Outcome State Fault Refusal :=
  busOperation true (fun s => conclude (memWrite .config [raw] s) (fun _ => 0#32)) s

end Sys2Proof.Machine
end

