-- ==== Sys2Proof/Machine/Dispatch.lean ====
section
/-! DEFINITION. One arm per operation (30_encoding.md rule R62). -/

namespace Sys2Proof.Machine

def exec (i : Instr) (s : State) : Host.Outcome State Fault Refusal :=
  match i with
  | .init low => Sys2Proof.Machine.execInit low s
  | .rdtemp sel => Sys2Proof.Machine.execRdtemp sel s
  | .rdtempf sel => Sys2Proof.Machine.execRdtempf sel s
  | .wrtemp sel value => Sys2Proof.Machine.execWrtemp sel value s
  | .wrtempf sel f => Sys2Proof.Machine.execWrtempf sel f s
  | .rdcfg => Sys2Proof.Machine.execRdcfg s
  | .wrcfg raw => Sys2Proof.Machine.execWrcfg raw s
  | .dectemp b0 b1 => Sys2Proof.Machine.execDectemp b0 b1 s
  | .enctemp value => Sys2Proof.Machine.execEnctemp value s
  | .deccfg raw => Sys2Proof.Machine.execDeccfg raw s
  | .enccfg packed => Sys2Proof.Machine.execEnccfg packed s

end Sys2Proof.Machine
end

