-- ==== Sys2Proof/Machine/Step.lean ====
section
/-! DEFINITION. One step: the block takes the oldest input and, if it is a legal command, runs it to its response
(70_reset_and_hazards.md rule R176; 10_state.md rule R23: one operation is one step). -/

namespace Sys2Proof.Machine

/-- One step of the machine. -/
def step (s : State) : Host.Outcome State Fault Refusal :=
  match fetch s with
  | .run i s' => exec i s'
  | .settled o => o

/-- `s` with the 40-bit command word `w` where `step` takes its next command; log entry 2. -/
def State.withFetchWord (s : State) (_nbits w : Nat) : State := offerFirst (BitVec.ofNat 40 w) s

end Sys2Proof.Machine
end

