-- ==== Sys2Proof/Safety.lean ====
section
/-! DEFINITION. What a safe run is, in the terms the statements use: the legality of a command word and of a response,
the wire protocol, the invariant of the machine, the resolution invariant of the reference device, the order of the
exceptions, and the relations that say what may not matter. -/

namespace Sys2Proof.Machine

/-! ### Legal command words (30_encoding.md rule R68), by fields -/

/-- The selector values rule R63 allows for an operation number. -/
def selectorFits (op : Nat) (sel : Nat) : Prop :=
  if op = 1 ∨ op = 2 ∨ op = 3 ∨ op = 4 then sel = 0 ∨ sel = 2 ∨ sel = 3
  else if op = 5 ∨ op = 6 then sel = 1
  else sel = 0

/-- How many low bits of `arg` rule R64 lists for an operation number. -/
def listedBits (op : Nat) : Nat :=
  if op = 0 then 3
  else if op = 1 ∨ op = 2 ∨ op = 5 then 0
  else if op = 3 ∨ op = 4 ∨ op = 9 then 32
  else if op = 8 then 16
  else 8

/-- Clauses (a) to (d) of rule R68, on the word as a number. -/
def legalWord (w : Nat) : Prop :=
  w / 2 ^ 38 = 0
    ∧ w / 2 ^ 34 % 16 ∈ [0, 1, 2, 3, 4, 5, 6, 8, 9, 10, 11]
    ∧ selectorFits (w / 2 ^ 34 % 16) (w / 2 ^ 32 % 4)
    ∧ w % 2 ^ 32 < 2 ^ listedBits (w / 2 ^ 34 % 16)

/-! ### Responses (30_encoding.md rule R66) -/

/-- The `code` column of rule R66: a TRANSPORT code is never 0, every other code is 0. -/
def responseLegal (r : Response) : Bool :=
  match r.kind with
  | .transport => r.code != 0#32
  | _ => r.code == 0#32

/-- The response of a successful operation. -/
def okResponse (result : Word) : Response := { kind := .ok, code := 0#32, result := result }

/-! ### The wire protocol (30_encoding.md rules R69, R70; 20_memory.md rules R35, R37, R38; 10_state.md rule R16) -/

/-- Where a bus trace stands. -/
inductive Wire where
  /-- Between operations. -/
  | idle
  /-- A select byte has been taken; its register is to be read. -/
  | selected (addr : BusAddr) (p : Byte)
  /-- The last transaction has no answer. -/
  | hung
  deriving DecidableEq, Repr

/-- The bytes of a register write the block may send: the Configuration register with one byte, Hysteresis or
Limit-Set with a byte and a half-degree flag; never Ambient. -/
def payloadLegal : List Byte → Bool
  | [p, _] => p == 1#8
  | [p, _, b1] => (p == 2#8 || p == 3#8) && (b1 == 0x00#8 || b1 == 0x80#8)
  | _ => false

/-- One transaction of the protocol; `none` where it breaks it. -/
def wireStep (x : Wire) (t : Transaction) : Option Wire :=
  match x, t with
  | .idle, .write a [p] st =>
    if p.toNat ≤ 3 then
      match st with
      | none => some .hung
      | some c => if c = 0#32 then some (.selected a p) else some .idle
    else none
  | .idle, .write _ bytes st =>
    if payloadLegal bytes then
      match st with
      | none => some .hung
      | some _ => some .idle
    else none
  | .selected a p, .read a' n got =>
    if a' = a ∧ n = (if p = 1#8 then 1 else 2) then
      match got with
      | none => some .hung
      | some (_, bytes) => if bytes.length = n then some .idle else none
    else none
  | _, _ => none

/-- Where a whole bus trace leads; `none` where it breaks the protocol. -/
def wireEnd (trace : List Transaction) : Option Wire := trace.foldlM wireStep .idle

/-- The address a transaction is sent to. -/
def transactionAddr : Transaction → BusAddr
  | .write a _ _ => a
  | .read a _ _ => a

/-- The fixed high bits of a bus address (10_state.md rule R12). -/
def highBits (a : BusAddr) : BitVec 4 := a.extractLsb' 3 4

/-- The invariant of the machine. -/
structure Inv (s : State) : Prop where
  /-- A bound handle's address has the fixed high bits (R12). -/
  boundAddr : s.handle.bound = true → highBits s.handle.addr = s.params.addrBase
  /-- So has the address of every transaction. -/
  traceAddr : ∀ t ∈ s.trace, highBits (transactionAddr t) = s.params.addrBase
  /-- The trace keeps the protocol, and the block is busy exactly while a transaction has no answer (R178). -/
  wire : wireEnd s.trace = some (if s.busy then .hung else .idle)
  /-- Every response's code is as rule R66 says. -/
  codes : ∀ r ∈ s.responses, responseLegal r = true
  /-- A response that has not been taken is the last one given, and no operation is in flight then (R176). -/
  port : ∀ r, s.pending = some r → s.busy = false ∧ s.responses.getLast? = some r

/-! ### The resolution invariant of the reference device (20_memory.md rule R51) -/

/-- `DEV.AMBIENT` byte 1 has no bit set outside `FRACMASK(DEV.CONFIG[6:5])`. -/
def resolutionHeld (d : Device) : Prop := d.ambient.b1 &&& ~~~(fracMask (resolutionCode d.config)) = 0#8

/-- The invariant for the environment of a state: nothing where the oracle stands. -/
def environmentHeld (s : State) : Prop := ∀ d, s.env = .device d → resolutionHeld d

/-! ### The order of the exceptions (60_exceptions.md rule R156) -/

/-- How an operation ends: its response's kind and code, or waiting for the transport. -/
inductive Ending where
  | answers (k : Kind) (code : Word)
  | waits
  deriving DecidableEq, Repr

/-- The write of the select byte with which a register read begins (R37). -/
def selectRequest (sel : Sel) (s : State) : Request := .write s.handle.addr [selectByte sel]

/-- The write of the select byte and the payload with which a register write is sent (R38). -/
def storeRequest (sel : Sel) (v : List Byte) (s : State) : Request := .write s.handle.addr (selectByte sel :: v)

/-- The read that follows the select write in state `s` (R37). -/
def dataRequest (n : Nat) (s : State) : Request := .read s.handle.addr n

/-- The state between the two transactions of a register read. -/
def afterSelect (sel : Sel) (s : State) : State := transact (selectRequest sel s) s

/-- The ending that one transaction's answer decides, before any later transaction. -/
def answerEnding (a : Answer) (next : Ending) : Ending :=
  match a with
  | .silent => .waits
  | .answered st _ _ => if st = 0#32 then next else .answers .transport st

/-- A register read: TransportFailure from the first transaction, then from the second. -/
def readEnding (sel : Sel) (n : Nat) (s : State) : Ending :=
  answerEnding (environmentAnswer (selectRequest sel s) s)
    (answerEnding (environmentAnswer (dataRequest n s) (afterSelect sel s)) (.answers .ok 0#32))

/-- A register write of the given bytes. -/
def writeEnding (sel : Sel) (v : List Byte) (s : State) : Ending :=
  answerEnding (environmentAnswer (storeRequest sel v s) s) (.answers .ok 0#32)

/-- The write of a temperature value. -/
def temperatureEnding (sel : Sel) (value : Int) (s : State) : Ending :=
  writeEnding sel [(encTemp value).1, (encTemp value).2] s

/-- Rule R156 (2) for the operations it applies to. -/
def afterBound (s : State) (next : Ending) : Ending :=
  if s.handle.bound then next else .answers .unbound 0#32

/-- Rule R156 (1) for an operation's selector. -/
def afterLegal (sel : Sel) (next : Ending) : Ending :=
  if sel = .config then .answers .illegal 0#32 else next

/-- Rule R156 (3): the Ambient guard. -/
def afterGuard (sel : Sel) (next : Ending) : Ending :=
  if sel = .ambient then .answers .ok 0#32 else next

/-- The first of the outcomes of rule R156 that applies. -/
def ending (i : Instr) (s : State) : Ending :=
  match i with
  | .init _ | .dectemp _ _ | .enctemp _ | .deccfg _ | .enccfg _ => .answers .ok 0#32
  | .rdtemp sel => afterLegal sel (afterBound s (readEnding sel 2 s))
  | .rdtempf sel => afterLegal sel (afterBound s (readEnding sel 2 s))
  | .wrtemp sel value => afterLegal sel (afterBound s (afterGuard sel (temperatureEnding sel (int32 value) s)))
  | .wrtempf sel f =>
    afterLegal sel (afterBound s (afterGuard sel
      (match f2v s.params.f2v f with
        | none => .answers .illegal 0#32
        | some v => temperatureEnding sel (int32 v) s)))
  | .rdcfg => afterBound s (readEnding .config 1 s)
  | .wrcfg raw => afterBound s (writeEnding .config [raw] s)

/-! ### The transactions of one operation (30_encoding.md rule R70) -/

/-- A register read: the select write alone where it is not answered with 0, else both transactions. -/
def readTrace (a : BusAddr) (sel : Sel) (n : Nat) (new : List Transaction) : Prop :=
  (∃ st, st ≠ some 0#32 ∧ new = [.write a [selectByte sel] st])
    ∨ (∃ got, (∀ st bytes, got = some (st, bytes) → bytes.length = n)
        ∧ new = [.write a [selectByte sel] (some 0#32), .read a n got])

/-- The write of a temperature value: one transaction of three bytes, to Hysteresis or Limit-Set. -/
def temperatureTrace (a : BusAddr) (sel : Sel) (value : Int) (new : List Transaction) : Prop :=
  (sel = .hyst ∨ sel = .limit)
    ∧ ∃ st, new = [.write a [selectByte sel, (encTemp value).1, (encTemp value).2] st]

/-- The transactions an operation may add to the bus trace, when it adds any. -/
def operationTrace (i : Instr) (s : State) (new : List Transaction) : Prop :=
  match i with
  | .init _ | .dectemp _ _ | .enctemp _ | .deccfg _ | .enccfg _ => False
  | .rdtemp sel => sel ≠ .config ∧ readTrace s.handle.addr sel 2 new
  | .rdtempf sel => sel ≠ .config ∧ readTrace s.handle.addr sel 2 new
  | .wrtemp sel value => temperatureTrace s.handle.addr sel (int32 value) new
  | .wrtempf sel f => ∃ v, f2v s.params.f2v f = some v ∧ temperatureTrace s.handle.addr sel (int32 v) new
  | .rdcfg => readTrace s.handle.addr .config 1 new
  | .wrcfg raw => ∃ st, new = [.write s.handle.addr [1#8, raw] st]

/-! ### The command port (70_reset_and_hazards.md rule R176) -/

/-- The commands that are offered and have not been accepted, in order. -/
def commandsOffered : List Input → List Command
  | [] => []
  | .command w :: rest => w :: commandsOffered rest
  | .signal _ :: rest => commandsOffered rest

/-! ### The conversion of a float operand (40_codec_temperature.md rule R101) -/

/-- How far a binary32 magnitude lies from `x` units of 2^-149. -/
def floatDistance (q : Word) (x : Nat) : Nat := ((floatUnits q : Int) - (x : Int)).natAbs

/-- The finite binary32 pattern `p` has the magnitude nearest to `x` units, and of two that are as near the one whose
last fraction bit is 0: "rounded to nearest, ties to even". -/
def isNearestFloat (p : Word) (x : Nat) : Prop :=
  floatFinite p = true ∧ ∀ q : Word, floatFinite q = true →
    floatDistance p x ≤ floatDistance q x
      ∧ (floatDistance p x = floatDistance q x → floatUnits q = floatUnits p ∨ floatFraction p % 2 = 0)

/-- The whole degrees-times-10000 of a magnitude in units of 2^-149, its fraction discarded, with a sign. -/
def truncated (negative : Bool) (units : Nat) : Word :=
  BitVec.ofInt 32 (if negative then -((units / 2 ^ 149 : Nat) : Int) else ((units / 2 ^ 149 : Nat) : Int))

/-! ### Relations between states -/

/-- `t` has one response more than `s`: it is recorded and stands at the response port (R176). -/
def givesResponse (s t : State) (r : Response) : Prop := t.responses = s.responses ++ [r] ∧ t.pending = some r

/-- `s` after the response `r` and nothing else. -/
def withResponse (s : State) (r : Response) : State := { s with responses := s.responses ++ [r], pending := some r }

/-- Only the response port differs: `t` is `s` after one response, with another free value next. -/
def onlyAnswers (s t : State) (k : Kind) (code : Word) : Prop :=
  ∃ r n, t = { withResponse s { kind := k, code := code, result := r } with fresh := n }

/-- As `onlyAnswers`, for a bus operation: the scratch buffer's content is any (R13, 60_exceptions.md rule R157). -/
def onlyAnswersAndScratch (s t : State) (k : Kind) (code : Word) : Prop :=
  ∃ r n c, t = { withResponse s { kind := k, code := code, result := r } with
    fresh := n, handle := { s.handle with scratch := c } }

/-- `t` is `s` but for what the scratch buffer holds. -/
def sameButScratch (s t : State) : Prop :=
  t = { s with handle := { s.handle with scratch := t.handle.scratch } }

/-- `t` is `s` but for what `H.ADDR` and the scratch buffer hold. -/
def sameButUnreadHandle (s t : State) : Prop :=
  t = { s with handle := { s.handle with addr := t.handle.addr, scratch := t.handle.scratch } }

/-- Two outcomes of the same form, their states related. -/
def outcomesRelated (R : State → State → Prop) : Host.Outcome State Fault Refusal → Host.Outcome State Fault Refusal → Prop
  | .next s, .next t => R s t
  | .refused a, .refused b => a = b
  | _, _ => False

/-- What every operation other than INIT leaves as it was: `H.BOUND`, `H.ADDR` (10_state.md rules R11, R12), the
parameters, the inputs still offered. -/
def keepsHandle (s t : State) : Prop :=
  t.handle.bound = s.handle.bound ∧ t.handle.addr = s.handle.addr ∧ t.params = s.params ∧ t.inputs = s.inputs

/-- An operation that is answered also leaves the block as ready as it was. -/
def keepsBlock (s t : State) : Prop := keepsHandle s t ∧ t.busy = s.busy

end Sys2Proof.Machine
end

