-- ==== Sys2Proof/Certificates/Slice0/Obligations.lean ====
section
/-! DEFINITION. The statements for the provers, from the numbered rules of spec/. -/

open Sys2Proof Sys2Proof.Machine

/-! ### Encoding (30_encoding.md) -/

/-- A well-formed operation is read back from its command word, every operand at every value. -/
def Obligations.EncodeThenDecode : Prop :=
  ∀ i : Instr, i.wellFormed = true → decode (encode i) = .ok i

/-- A command word that decodes is the word of the operation read, which is well formed. -/
def Obligations.DecodeThenEncode : Prop :=
  ∀ (w : Command) (i : Instr), decode w = .ok i → i.wellFormed = true ∧ encode i = w

/-- Every word is exactly one row of the table with its field constraints met, or illegal (R81, which the spec marks as
derived from rules R60 to R64 and R68). -/
def Obligations.EveryWordIsOneRowOrIllegal : Prop :=
  ∀ w : Command,
    (legalWord w.toNat ∧ ∃ i, decode w = .ok i ∧ i.wellFormed = true ∧ fitsRow i w = true
        ∧ ∀ j, fitsRow j w = true → mnemonic j = mnemonic i)
      ∨ (¬ legalWord w.toNat ∧ ∃ e, decode w = .error e)

/-- Words written out from the encoding of rules R60 to R64 decode to the operation they stand for. -/
def Obligations.SpecWordsDecode : Prop :=
  decode 0x0000000007#40 = .ok (.init 7#3)
    ∧ decode 0x0600000000#40 = .ok (.rdtemp .hyst)
    ∧ decode 0x0E0000B98C#40 = .ok (.wrtemp .hyst 47500#32)
    ∧ decode 0x1900000060#40 = .ok (.wrcfg 0x60#8)
    ∧ decode 0x2000001980#40 = .ok (.dectemp 0x19#8 0x80#8)
    ∧ decode 0x2C000000A6#40 = .ok (.enccfg 0xA6#8)

/-- Rules R68 and R153: an illegal word is answered ILLEGAL with no effect on `H` and no bus transaction, whether the
handle is bound or not; so is WRTEMPF of an operand that does not convert, but that the content of the scratch buffer is
any after it (R13, R157; log entry 10). -/
def Obligations.IllegalCommandHasNoEffect : Prop :=
  (∀ w : Command, (∃ e, decode w = .error e) ↔ ¬ legalWord w.toNat)
    ∧ (∀ (s : State) (w : Command) (rest : List Input), ready s = true → s.inputs = .command w :: rest →
        ¬ legalWord w.toNat → ∃ t, step s = .next t ∧ onlyAnswers { s with inputs := rest } t .illegal 0#32)
    ∧ (∀ (s : State) (sel : Sel) (f : Word), s.handle.bound = true → sel = .hyst ∨ sel = .limit →
        f2v s.params.f2v f = none → ∃ t, exec (.wrtempf sel f) s = .next t ∧ onlyAnswersAndScratch s t .illegal 0#32)

/-! ### The step -/

/-- A step of a ready block whose oldest input is a legal command runs that operation, and nothing else (that inputs
are a list is the model's choice, log entry 2). -/
def Obligations.StepRunsTheDecodedCommand : Prop :=
  ∀ (s : State) (w : Command) (rest : List Input) (i : Instr), ready s = true → s.inputs = .command w :: rest →
    decode w = .ok i → step s = exec i { s with inputs := rest }

/-- A block that waits for the transport, or for its response to be taken, holds the commands offered, neither losing nor
merging them, for ever; a ready block with nothing offered stays as it is (that inputs are a list is the model's choice,
log entry 2). -/
def Obligations.BusyBlockHoldsCommands : Prop :=
  (∀ s : State, ready s = false → (∀ x ∈ s.inputs, ∃ w, x = .command w) → step s = .next s)
    ∧ (∀ s : State, ready s = true → s.inputs = [] → step s = .next s)

/-- A reset request unbinds a block that has no operation in flight, makes it ready, and touches neither the environment
nor the record of the run; while an operation is in flight the run has no meaning (that reset is an input in a list, and
that a response not yet taken is gone, are the model's choices, log entries 2 and 6). -/
def Obligations.ResetRequestUnbinds : Prop :=
  (∀ (s : State) (rest : List Input), s.busy = false → s.inputs = .signal .reset :: rest →
      ∃ t, step s = .next t ∧ t.handle.bound = false ∧ ready t = true ∧ t.inputs = rest ∧ t.env = s.env
        ∧ t.trace = s.trace ∧ t.responses = s.responses ∧ t.params = s.params)
    ∧ (∀ s : State, s.busy = true → Input.signal .reset ∈ s.inputs → step s = .refused .resetInFlight)

/-- "this is the only way the block can become unbound again" (R172); no operation clears `H.BOUND` (R11). -/
def Obligations.OnlyResetUnbinds : Prop :=
  ∀ s t : State, step s = .next t → s.handle.bound = true → t.handle.bound = false →
    s.busy = false ∧ ∃ rest, firstSignal s.inputs = some (.reset, rest)
      ∧ (ready s = true → s.inputs = .signal .reset :: rest)

/-- Rule R170: after reset the handle is unbound, no command is in flight, the bus has seen nothing and the block is ready
for a command. -/
def Obligations.ResetStateIsUnboundAndIdle : Prop :=
  State.reset.handle.bound = false ∧ State.reset.busy = false ∧ State.reset.trace = [] ∧ ready State.reset = true

/-- A new measurement arrives in `DEV.AMBIENT` with the bits outside the resolution's mask cleared, and nothing else
changes (R51; the input is the model's form of "a simulation that changes DEV.AMBIENT", log entry 12). -/
def Obligations.MeasurementArrivesMasked : Prop :=
  ∀ (s : State) (r : TempReg) (rest : List Input) (d : Device), (s.busy = true → Input.signal .reset ∉ rest) →
    s.inputs = .signal (.measurement r) :: rest → s.env = .device d →
    step s = .next { s with
      inputs := rest
      env := .device { d with ambient := { b0 := r.b0, b1 := r.b1 &&& fracMask (resolutionCode d.config) } } }

/-! ### The handle and the two checks -/

/-- Rule R121: INIT stores `ADDR_BASE ++ low`, binds, answers OK, and changes nothing else, bound or not, but that the
content of the scratch buffer is any after every bus operation (R13; log entry 10). -/
def Obligations.InitBindsTheHandle : Prop :=
  ∀ (s : State) (low : BitVec 3), ∃ c n, exec (.init low) s = .next (withResponse
    { s with handle := { bound := true, addr := s.params.addrBase ++ low, scratch := c }, fresh := n }
    (okResponse 0#32))

/-- R151: a bus operation other than INIT on an unbound handle is answered UNBOUND, without a transaction, with `H.BOUND`
and `H.ADDR` as they were and the content of the scratch buffer any (R157 for "the handle is unchanged" of R151; log
entry 10); INIT and the codec operations are answered OK there. -/
def Obligations.UnboundHandleAnswersUnbound : Prop :=
  ∀ s : State, s.handle.bound = false →
    (∀ sel : Sel, sel ≠ .config → ∀ value f : Word,
        (∃ t, exec (.rdtemp sel) s = .next t ∧ onlyAnswersAndScratch s t .unbound 0#32)
          ∧ (∃ t, exec (.rdtempf sel) s = .next t ∧ onlyAnswersAndScratch s t .unbound 0#32)
          ∧ (∃ t, exec (.wrtemp sel value) s = .next t ∧ onlyAnswersAndScratch s t .unbound 0#32)
          ∧ (∃ t, exec (.wrtempf sel f) s = .next t ∧ onlyAnswersAndScratch s t .unbound 0#32))
      ∧ (∃ t, exec .rdcfg s = .next t ∧ onlyAnswersAndScratch s t .unbound 0#32)
      ∧ (∀ raw, ∃ t, exec (.wrcfg raw) s = .next t ∧ onlyAnswersAndScratch s t .unbound 0#32)
      ∧ (∀ i : Instr, (∃ low, i = .init low) ∨ (∃ b0 b1, i = .dectemp b0 b1) ∨ (∃ v, i = .enctemp v)
          ∨ (∃ raw, i = .deccfg raw) ∨ (∃ p, i = .enccfg p) →
          ∃ t r, exec i s = .next t ∧ givesResponse s t (okResponse r) ∧ t.trace = s.trace)

/-! ### Temperature and configuration reads (42_bus_operations.md) -/

/-- Rule R122: RDTEMP selects, reads two bytes and answers their sign-magnitude value. -/
def Obligations.RdtempAnswersTheTemperature : Prop :=
  ∀ (s : State) (sel : Sel) (x y b0 b1 : Byte), s.handle.bound = true → sel ≠ .config →
    environmentAnswer (selectRequest sel s) s = .answered 0#32 x y →
    environmentAnswer (dataRequest 2 s) (afterSelect sel s) = .answered 0#32 b0 b1 →
    ∃ t, exec (.rdtemp sel) s = .next t ∧ keepsBlock s t
      ∧ givesResponse s t (okResponse (toInt32 (decTemp b0 b1)))
      ∧ t.trace = s.trace ++ [.write s.handle.addr [selectByte sel] (some 0#32),
          .read s.handle.addr 2 (some (0#32, [b0, b1]))]
      ∧ t.env = environmentAfter (dataRequest 2 s) (afterSelect sel s)

/-- Rule R123: RDTEMPF is RDTEMP with the value as a binary32 number. -/
def Obligations.RdtempfAnswersTheTemperature : Prop :=
  ∀ (s : State) (sel : Sel) (x y b0 b1 : Byte), s.handle.bound = true → sel ≠ .config →
    environmentAnswer (selectRequest sel s) s = .answered 0#32 x y →
    environmentAnswer (dataRequest 2 s) (afterSelect sel s) = .answered 0#32 b0 b1 →
    ∃ t, exec (.rdtempf sel) s = .next t ∧ keepsBlock s t
      ∧ givesResponse s t (okResponse (v2f (decTemp b0 b1)))
      ∧ t.trace = s.trace ++ [.write s.handle.addr [selectByte sel] (some 0#32),
          .read s.handle.addr 2 (some (0#32, [b0, b1]))]
      ∧ t.env = environmentAfter (dataRequest 2 s) (afterSelect sel s)

/-- Rule R126: RDCFG selects, reads one byte and answers `CFGRESULT`. -/
def Obligations.RdcfgAnswersTheConfiguration : Prop :=
  ∀ (s : State) (x y raw z : Byte), s.handle.bound = true →
    environmentAnswer (selectRequest .config s) s = .answered 0#32 x y →
    environmentAnswer (dataRequest 1 s) (afterSelect .config s) = .answered 0#32 raw z →
    ∃ t, exec .rdcfg s = .next t ∧ keepsBlock s t
      ∧ givesResponse s t (okResponse (cfgResult raw))
      ∧ t.trace = s.trace ++ [.write s.handle.addr [1#8] (some 0#32), .read s.handle.addr 1 (some (0#32, [raw]))]
      ∧ t.env = environmentAfter (dataRequest 1 s) (afterSelect .config s)

/-- Rule R37 and decision D7: where the select write fails, each read operation answers TRANSPORT with the
transport's code, unmodified, and issues no read. -/
def Obligations.FailedSelectEndsTheRead : Prop :=
  ∀ (s : State) (sel : Sel) (st : Word) (x y : Byte), s.handle.bound = true → st ≠ 0#32 →
    environmentAnswer (selectRequest sel s) s = .answered st x y →
    ∀ i : Instr, (sel ≠ .config ∧ (i = .rdtemp sel ∨ i = .rdtempf sel)) ∨ (sel = .config ∧ i = .rdcfg) →
      ∃ t r, exec i s = .next t ∧ keepsBlock s t
        ∧ givesResponse s t { kind := .transport, code := st, result := r }
        ∧ t.trace = s.trace ++ [.write s.handle.addr [selectByte sel] (some st)]
        ∧ t.env = environmentAfter (selectRequest sel s) s

/-- Rules R37 and R152: where the read fails, the operation answers TRANSPORT with that code, and both transactions
stand in the trace. -/
def Obligations.FailedDataEndsTheRead : Prop :=
  ∀ (s : State) (sel : Sel) (st : Word) (x y d0 d1 : Byte), s.handle.bound = true → st ≠ 0#32 →
    environmentAnswer (selectRequest sel s) s = .answered 0#32 x y →
    environmentAnswer (dataRequest (registerWidth sel) s) (afterSelect sel s) = .answered st d0 d1 →
    ∀ i : Instr, (sel ≠ .config ∧ (i = .rdtemp sel ∨ i = .rdtempf sel)) ∨ (sel = .config ∧ i = .rdcfg) →
      ∃ t r, exec i s = .next t ∧ keepsBlock s t
        ∧ givesResponse s t { kind := .transport, code := st, result := r }
        ∧ t.trace = s.trace ++ [.write s.handle.addr [selectByte sel] (some 0#32),
            .read s.handle.addr (registerWidth sel) (some (st, [d0, d1].take (registerWidth sel)))]
        ∧ t.env = environmentAfter (dataRequest (registerWidth sel) s) (afterSelect sel s)

/-! ### Temperature and configuration writes (42_bus_operations.md) -/

/-- WRTEMP and WRTEMPF to Ambient answer OK, whatever the value, transmit nothing (R124, R182) and change nothing else, but
that the content of the scratch buffer is any after every bus operation (R13; R22's table, which the spec marks as
derived, lists no write of it; log entry 10). -/
def Obligations.AmbientWriteSucceedsSilently : Prop :=
  ∀ (s : State) (value f : Word), s.handle.bound = true →
    ∃ c n, exec (.wrtemp .ambient value) s = .next (withResponse
        { s with handle := { s.handle with scratch := c }, fresh := n } (okResponse 0#32))
      ∧ exec (.wrtempf .ambient f) s = .next (withResponse
        { s with handle := { s.handle with scratch := c }, fresh := n } (okResponse 0#32))

/-- Rule R124: WRTEMP sends the select byte and the two encoded bytes in one transaction and answers OK. -/
def Obligations.WrtempTransmitsTheEncodedValue : Prop :=
  ∀ (s : State) (sel : Sel) (value : Word) (x y : Byte), s.handle.bound = true → sel = .hyst ∨ sel = .limit →
    environmentAnswer (storeRequest sel [encTempByte0 value.toInt, encTempByte1 value.toInt] s) s
      = .answered 0#32 x y →
    ∃ t, exec (.wrtemp sel value) s = .next t ∧ keepsBlock s t
      ∧ givesResponse s t (okResponse 0#32)
      ∧ t.trace = s.trace
          ++ [.write s.handle.addr [selectByte sel, encTempByte0 value.toInt, encTempByte1 value.toInt] (some 0#32)]
      ∧ t.env = environmentAfter (storeRequest sel [encTempByte0 value.toInt, encTempByte1 value.toInt] s) s

/-- Rule R125: WRTEMPF sends the encoded bytes of the converted operand, whichever `F2V` is in use. -/
def Obligations.WrtempfTransmitsTheConvertedValue : Prop :=
  ∀ (s : State) (sel : Sel) (f v : Word) (x y : Byte), s.handle.bound = true → sel = .hyst ∨ sel = .limit →
    f2v s.params.f2v f = some v →
    environmentAnswer (storeRequest sel [encTempByte0 v.toInt, encTempByte1 v.toInt] s) s = .answered 0#32 x y →
    ∃ t, exec (.wrtempf sel f) s = .next t ∧ keepsBlock s t
      ∧ givesResponse s t (okResponse 0#32)
      ∧ t.trace = s.trace
          ++ [.write s.handle.addr [selectByte sel, encTempByte0 v.toInt, encTempByte1 v.toInt] (some 0#32)]
      ∧ t.env = environmentAfter (storeRequest sel [encTempByte0 v.toInt, encTempByte1 v.toInt] s) s

/-- Rule R127: WRCFG sends the byte as given. -/
def Obligations.WrcfgTransmitsTheByte : Prop :=
  ∀ (s : State) (raw x y : Byte), s.handle.bound = true →
    environmentAnswer (storeRequest .config [raw] s) s = .answered 0#32 x y →
    ∃ t, exec (.wrcfg raw) s = .next t ∧ keepsBlock s t
      ∧ givesResponse s t (okResponse 0#32)
      ∧ t.trace = s.trace ++ [.write s.handle.addr [1#8, raw] (some 0#32)]
      ∧ t.env = environmentAfter (storeRequest .config [raw] s) s

/-- Rule R38: where the one transaction of a write fails, the operation answers TRANSPORT with that code. -/
def Obligations.FailedStoreIsReported : Prop :=
  ∀ (s : State) (sel : Sel) (v : List Byte) (st : Word) (x y : Byte), s.handle.bound = true → st ≠ 0#32 →
    environmentAnswer (storeRequest sel v s) s = .answered st x y →
    ∀ i : Instr,
      ((sel = .hyst ∨ sel = .limit) ∧
        ((∃ value, i = .wrtemp sel value ∧ v = [encTempByte0 value.toInt, encTempByte1 value.toInt])
          ∨ (∃ f c, i = .wrtempf sel f ∧ f2v s.params.f2v f = some c
              ∧ v = [encTempByte0 c.toInt, encTempByte1 c.toInt])))
      ∨ (sel = .config ∧ ∃ raw, i = .wrcfg raw ∧ v = [raw]) →
      ∃ t r, exec i s = .next t ∧ keepsBlock s t
        ∧ givesResponse s t { kind := .transport, code := st, result := r }
        ∧ t.trace = s.trace ++ [.write s.handle.addr (selectByte sel :: v) (some st)]
        ∧ t.env = environmentAfter (storeRequest sel v s) s

/-- Rule R80: the float forms are the integer forms with a conversion: WRTEMPF to a register is WRTEMP of the
converted value, and RDTEMPF leaves what RDTEMP leaves but for the result's form. -/
def Obligations.FloatFormsDelegate : Prop :=
  (∀ (s : State) (sel : Sel) (f v : Word), f2v s.params.f2v f = some v →
      exec (.wrtempf sel f) s = exec (.wrtemp sel v) s)
    ∧ (∀ (s t : State) (sel : Sel), exec (.rdtemp sel) s = .next t →
        ∃ u, exec (.rdtempf sel) s = .next u ∧ u = { t with responses := u.responses, pending := u.pending }
          ∧ ((t.responses = u.responses ∧ t.pending = u.pending ∧ ∀ r, t.responses ≠ s.responses ++ [okResponse r])
            ∨ ∃ b0 b1, givesResponse s t (okResponse (toInt32 (decTemp b0 b1)))
                ∧ givesResponse s u (okResponse (v2f (decTemp b0 b1)))))

/-! ### All operations -/

/-- Rule R156: every operation goes on, with one response whose kind and code are those of the first outcome that
applies, or with none because the transport has not answered (log entry 5; a selector no word can carry counts as
illegal, log entry 13). -/
def Obligations.FirstExceptionIsReported : Prop :=
  ∀ (i : Instr) (s : State), ∃ t, exec i s = .next t ∧
    match ending i s with
    | .answers k code =>
      t.busy = s.busy ∧ ∃ r, givesResponse s t { kind := k, code := code, result := r }
    | .waits => t.busy = true ∧ t.responses = s.responses ∧ t.pending = s.pending

/-- Rule R178: an operation whose transaction the transport never answers gives no response, and the block stays busy
through every later step, whatever commands are offered, while no reset is asserted (log entries 2 and 5). -/
def Obligations.SilentTransportHangsTheBlock : Prop :=
  ∀ (s : State) (i : Instr), ending i s = .waits → (∀ x ∈ s.inputs, ∃ w, x = .command w) →
    ∃ t, exec i s = .next t ∧ t.busy = true ∧ t.responses = s.responses ∧ t.inputs = s.inputs
      ∧ ∀ k : Nat, Sys2Proof.core.run k t = .next t

/-- What every operation leaves unchanged: the parameters and the inputs, the responses and transactions already
recorded, and, but for INIT, `H.BOUND` and `H.ADDR`. INIT and the codec operations also leave the environment and the
trace, and the codec operations the whole handle. -/
def Obligations.OperationsLeaveTheRest : Prop :=
  ∀ (i : Instr) (s t : State), exec i s = .next t →
    t.params = s.params ∧ t.inputs = s.inputs
      ∧ (∃ new, t.responses = s.responses ++ new) ∧ (∃ new, t.trace = s.trace ++ new)
      ∧ ((∀ low, i ≠ .init low) → t.handle.bound = s.handle.bound ∧ t.handle.addr = s.handle.addr)
      ∧ ((∃ low, i = .init low) ∨ (∃ b0 b1, i = .dectemp b0 b1) ∨ (∃ v, i = .enctemp v) ∨ (∃ raw, i = .deccfg raw)
          ∨ (∃ p, i = .enccfg p) → t.env = s.env ∧ t.trace = s.trace ∧ t.busy = s.busy)
      ∧ ((∃ b0 b1, i = .dectemp b0 b1) ∨ (∃ v, i = .enctemp v) ∨ (∃ raw, i = .deccfg raw) ∨ (∃ p, i = .enccfg p) →
          t.handle = s.handle)

/-- Rule R70: the transactions an operation adds to the bus trace are none, or those of its row. -/
def Obligations.TransactionsOfAnOperation : Prop :=
  ∀ (i : Instr) (s t : State), exec i s = .next t →
    ∃ new, t.trace = s.trace ++ new ∧ (new = [] ∨ operationTrace i s new)

/-- Rule R13: nothing but the scratch buffer depends on what the scratch buffer held. -/
def Obligations.ScratchNeverMatters : Prop :=
  ∀ s t : State, sameButScratch s t → outcomesRelated sameButScratch (step s) (step t)

/-- Rules R12 and R21: while the handle is unbound nothing else depends on `H.ADDR` or the scratch buffer. -/
def Obligations.AddressNotReadWhileUnbound : Prop :=
  ∀ s t : State, s.handle.bound = false → sameButUnreadHandle s t →
    outcomesRelated sameButUnreadHandle (step s) (step t)

/-- The invariant holds after reset (that the records are empty then is log entry 2). -/
def Obligations.InvariantAtReset : Prop := Inv State.reset

/-- Every step keeps the invariant: bound addresses have the fixed high bits, the bus trace keeps the wire protocol
(in it no write to Ambient), the block is busy exactly while a transaction has no answer, codes are legal, and a response
not yet taken is the last one given. -/
def Obligations.StepKeepsInvariant : Prop :=
  ∀ s t : State, Inv s → step s = .next t → Inv t

/-! ### The temperature codec (40_codec_temperature.md) -/

/-- Rule R90: DECTEMP, opcode byte `0x20`, answers the sign-magnitude value, bound or not, and changes nothing else. -/
def Obligations.DectempAnswers : Prop :=
  (∀ b0 b1 : Byte, encode (.dectemp b0 b1) = 0x20#8 ++ (0#16 ++ b0 ++ b1))
    ∧ ∀ (s : State) (b0 b1 : Byte), exec (.dectemp b0 b1) s = .next
    (withResponse s (okResponse (BitVec.ofInt 32
        ((if 128 ≤ b0.toNat then -1 else 1) * (((b0.toNat % 128 : Nat) : Int) * 10000
          + ((if 128 ≤ b1.toNat then 5000 else 0) + (if 64 ≤ b1.toNat % 128 then 2500 else 0)
            + (if 32 ≤ b1.toNat % 64 then 1250 else 0) + (if 16 ≤ b1.toNat % 32 then 625 else 0)))))))

/-- Rule R94: ENCTEMP, opcode byte `0x24`, answers the low 8 bits of the truncated quotient and the half-degree flag. -/
def Obligations.EnctempAnswers : Prop :=
  (∀ value : Word, encode (.enctemp value) = 0x24#8 ++ value)
    ∧ ∀ (s : State) (value : Word), ∃ b0 b1 : Byte,
    exec (.enctemp value) s = .next (withResponse s (okResponse (0#16 ++ b0 ++ b1)))
      ∧ ((b0.toNat : Int) = (value.toInt.tdiv 10000) % 256)
      ∧ b1 = (if 5000 ≤ value.toInt - value.toInt.tdiv 10000 * 10000 then 0x80#8 else 0x00#8)

/-- R91, which the spec marks as derived from R90: every decoded value lies in -1279375 to 1279375, is a multiple of 625
and fits in 22 bits signed; its magnitude, the largest intermediate, does not wrap. -/
def Obligations.DecodedRange : Prop :=
  (∀ b0 b1 : Byte, -1279375 ≤ decTemp b0 b1 ∧ decTemp b0 b1 ≤ 1279375 ∧ (625 : Int) ∣ decTemp b0 b1
      ∧ (BitVec.ofInt 22 (decTemp b0 b1)).toInt = decTemp b0 b1 ∧ (toInt32 (decTemp b0 b1)).toInt = decTemp b0 b1
      ∧ decTempMagnitude b0 b1 ≤ 1279375)
    ∧ decTemp 0x7F#8 0xF0#8 = 1279375 ∧ decTemp 0xFF#8 0xF0#8 = -1279375

/-- Rule R92: negative zero decodes to 0, so exactly two bytes 0 do, and the decode is not injective; with a fraction
the sign applies. -/
def Obligations.NegativeZeroDecodesToZero : Prop :=
  (∀ b0 b1 : Byte, decTemp b0 b1 = 0 ↔ (b0 = 0x00#8 ∨ b0 = 0x80#8) ∧ b1.extractLsb' 4 4 = 0#4)
    ∧ (∀ b1 : Byte, b1.extractLsb' 4 4 ≠ 0#4 → decTemp 0x80#8 b1 < 0)
    ∧ ¬ Function.Injective (fun p : Byte × Byte => decTemp p.1 p.2)
    ∧ decTemp 0x80#8 0x10#8 = -625

/-- Rule R93: the low four bits of byte 1 contribute nothing, and every other bit counts by its weight, whatever the
resolution. -/
def Obligations.DecodeIgnoresLowNibble : Prop :=
  (∀ b0 b1 : Byte, decTemp b0 b1 = decTemp b0 (b1 &&& 0xF0#8))
    ∧ (∀ b0 b1 c1 : Byte, decTempMagnitude b0 b1 = decTempMagnitude b0 c1 ↔ b1 &&& 0xF0#8 = c1 &&& 0xF0#8)

/-- For a negative value byte 1 is always 0 and byte 0 is the two's complement quotient's low byte; above -10000 both
are 0 (R94, R95). That byte 0 is the low byte of the quotient, and not of its magnitude, is the spec's own decision D6
on the source's words (log entry 15). -/
def Obligations.NegativeValuesEncodeUnsigned : Prop :=
  (∀ value : Int, value < 0 → quot value 10000 ≤ 0 ∧ rem value 10000 ≤ 0 ∧ encTempByte1 value = 0x00#8
      ∧ ((encTempByte0 value).toNat : Int) = (-((-value) / 10000)) % 256)
    ∧ (∀ value : Int, -9999 ≤ value → value ≤ -1 → encTemp value = (0x00#8, 0x00#8))
    ∧ encTemp (-50000) = (0xFB#8, 0x00#8)

/-- Rule R97, and R96, which the spec marks as derived from R94: for a value from 0 on the encode keeps the whole degrees
modulo 256 and cuts the fraction down to the half-degree flag. -/
def Obligations.LargeValuesWrapAndFractionsAreCut : Prop :=
  (∀ value : Nat, ((encTempByte0 value).toNat = value / 10000 % 256)
      ∧ encTempByte1 value = (if value % 10000 < 5000 then 0x00#8 else 0x80#8))
    ∧ (∀ value : Nat, 1280000 ≤ value → value < 2560000 → (encTempByte0 value).getLsbD 7 = true)
    ∧ (∀ value : Nat, encTemp ((value + 2560000 : Nat) : Int) = encTemp (value : Int))

/-- R98, which the spec marks as derived: the exact domains of the two round-trip laws. -/
def Obligations.RoundTripDomains : Prop :=
  (∀ b0 b1 : Byte, encTemp (decTemp b0 b1) = (b0, b1) ↔
      (b0.toNat ≤ 127 ∧ (b1 = 0x00#8 ∨ b1 = 0x80#8)) ∨ (b0 = 0xC0#8 ∧ b1 = 0x00#8))
    ∧ (∀ x : Int, decTemp (encTemp x).1 (encTemp x).2 = x ↔
      (∃ m h : Nat, m ≤ 127 ∧ h ≤ 1 ∧ x = m * 10000 + h * 5000) ∨ x = -640000)

/-- Rule R103: with no bit set outside `FRACMASK(c)` the decoded value is a multiple of 10000 / 2^(c+1). -/
def Obligations.ResolutionGivesTheStep : Prop :=
  (fracMask 0#2 = 0x80#8 ∧ fracMask 1#2 = 0xC0#8 ∧ fracMask 2#2 = 0xE0#8 ∧ fracMask 3#2 = 0xF0#8)
    ∧ ∀ (c : BitVec 2) (b0 b1 : Byte), b1 &&& ~~~(fracMask c) = 0#8 →
        ((10000 / 2 ^ (c.toNat + 1) : Nat) : Int) ∣ decTemp b0 b1

/-! ### The float conversions (40_codec_temperature.md section 4) -/

/-- R100 and R102, marked by the spec as its decision and as derived: on every decoder output `V2F` is exact: the
binary32 number times 10000 is the value, and zero gives `+0.0` (binary32's layout is log entry 17). -/
def Obligations.FloatReadIsExact : Prop :=
  ∀ b0 b1 : Byte, floatFinite (v2f (decTemp b0 b1)) = true
    ∧ floatUnits (v2f (decTemp b0 b1)) * 10000 = (decTemp b0 b1).natAbs * 2 ^ 149
    ∧ (floatNegative (v2f (decTemp b0 b1)) = true ↔ decTemp b0 b1 < 0)

/-- Rule R101: where the exact product `f * 10000` is an integer of magnitude below 2^24, the default `F2V` and the
exact-product one both give that integer (binary32's layout is log entry 17). -/
def Obligations.FloatWritesAgreeOnExactProducts : Prop :=
  ∀ (f : Word) (n : Nat), floatFinite f = true → floatUnits f * 10000 = n * 2 ^ 149 → n < 2 ^ 24 →
    f2vRounded f = some (BitVec.ofInt 32 (if floatNegative f then -(n : Int) else n))
      ∧ f2vExact f = some (BitVec.ofInt 32 (if floatNegative f then -(n : Int) else n))

/-- Every temperature the block can answer as a float is taken back unchanged by WRTEMPF's conversion, under both
`F2V` of rule R101 (binary32's layout is log entry 17). -/
def Obligations.FloatFormsRoundTrip : Prop :=
  ∀ (c : F2VChoice) (b0 b1 : Byte), c ≠ .replaced →
    f2v c (v2f (decTemp b0 b1)) = some (toInt32 (decTemp b0 b1))

/-- Rule R101 and U8: a NaN and an infinity are `invalid`, for the default and, by the model's inference of log entry 8,
for the exact product; a replaced `F2V` is left out. That an all-ones exponent field is a NaN or an infinity, and that
its product is taken to be the operand itself, is log entry 17. -/
def Obligations.NotANumberIsInvalid : Prop :=
  ∀ (c : F2VChoice) (f : Word), c ≠ .replaced → (f.extractLsb' 23 8 = 0xFF#8) → f2v c f = none

/-! ### The configuration codec (41_codec_config.md) -/

/-- Rule R110: DECCFG, opcode byte `0x28`, answers the byte, the packed record, the resolution in bits and the fault
count. -/
def Obligations.DeccfgAnswers : Prop :=
  (∀ raw : Byte, encode (.deccfg raw) = 0x28#8 ++ (0#24 ++ raw))
    ∧ ∀ (s : State) (raw : Byte), exec (.deccfg raw) s = .next
    (withResponse s (okResponse
        (0#9 ++ (if raw.extractLsb' 3 2 = 0#2 then 1#3 else if raw.extractLsb' 3 2 = 1#2 then 2#3
            else if raw.extractLsb' 3 2 = 2#2 then 4#3 else 6#3)
          ++ (9#4 + (raw.extractLsb' 5 2).setWidth 4)
          ++ (raw.extractLsb' 0 1 ++ raw.extractLsb' 1 1 ++ raw.extractLsb' 2 1 ++ raw.extractLsb' 3 2
            ++ raw.extractLsb' 5 2 ++ raw.extractLsb' 7 1) ++ raw)))

/-- Rule R111: ENCCFG, opcode byte `0x2C`, answers the byte whose fields are the record's members. -/
def Obligations.EnccfgAnswers : Prop :=
  (∀ p : Byte, encode (.enccfg p) = 0x2C#8 ++ (0#24 ++ p))
    ∧ ∀ (s : State) (p : Byte), exec (.enccfg p) s = .next
    (withResponse s (okResponse
        (0#24 ++ (p.extractLsb' 0 1 ++ p.extractLsb' 1 2 ++ p.extractLsb' 3 2 ++ p.extractLsb' 5 1
          ++ p.extractLsb' 6 1 ++ p.extractLsb' 7 1))))

/-- Rule R112: the two codec functions are bijections, each the inverse of the other, also in packed form. -/
def Obligations.ConfigurationRoundTrips : Prop :=
  (∀ raw : Byte, encCfg (decCfg raw) = raw) ∧ (∀ c : CfgRec, decCfg (encCfg c) = c)
    ∧ (∀ p : Byte, packCfg (unpackCfg p) = p) ∧ (∀ c : CfgRec, unpackCfg (packCfg c) = c)
    ∧ Function.Bijective decCfg ∧ Function.Bijective encCfg

/-- R113, which the spec marks as derived from R110: each field of the record is its bits of the byte, and the six
together are the byte. -/
def Obligations.FieldExtraction : Prop :=
  ∀ raw : Byte,
    raw &&& 0x80#8 = (BitVec.ofBool (decCfg raw).oneShot).setWidth 8 <<< 7
      ∧ raw &&& 0x60#8 = (decCfg raw).resolution.setWidth 8 <<< 5
      ∧ raw &&& 0x18#8 = (decCfg raw).faultQueue.setWidth 8 <<< 3
      ∧ raw &&& 0x04#8 = (BitVec.ofBool (decCfg raw).alertPolarity).setWidth 8 <<< 2
      ∧ raw &&& 0x02#8 = (BitVec.ofBool (decCfg raw).intMode).setWidth 8 <<< 1
      ∧ raw &&& 0x01#8 = (BitVec.ofBool (decCfg raw).shutdown).setWidth 8
      ∧ (BitVec.ofBool (decCfg raw).oneShot).setWidth 8 <<< 7 + (decCfg raw).resolution.setWidth 8 <<< 5
          + (decCfg raw).faultQueue.setWidth 8 <<< 3 + (BitVec.ofBool (decCfg raw).alertPolarity).setWidth 8 <<< 2
          + (BitVec.ofBool (decCfg raw).intMode).setWidth 8 <<< 1
          + (BitVec.ofBool (decCfg raw).shutdown).setWidth 8 = raw

/-- Rules R74 and R75: the two enumerations; both are injective (R114). -/
def Obligations.EnumerationsAreInjective : Prop :=
  (∀ c : BitVec 2, resBits c = 9 + c.toNat) ∧ ((List.finRange 4).map (fun c => faultCount (BitVec.ofFin c)) = [1, 2, 4, 6])
    ∧ Function.Injective resBits ∧ Function.Injective faultCount

/-- Rules R65 and R66: the response word is kind, code and result, at bits 65:64, 63:32 and 31:0. -/
def Obligations.ResponseWordLayout : Prop :=
  ∀ r : Response, (responseWord r).extractLsb' 32 32 = r.code ∧ (responseWord r).extractLsb' 0 32 = r.result
    ∧ (responseWord r).extractLsb' 64 2 = (match r.kind with
        | .ok => 0#2 | .unbound => 1#2 | .transport => 2#2 | .illegal => 3#2)

/-! ### The reference device (20_memory.md section 9; simulation only, each statement names it) -/

/-- Every step keeps the resolution invariant of the reference device (R51; that a measurement is an input and that every
configuration write masks are the model's choices, log entries 11 and 12). -/
def Obligations.StepKeepsResolution : Prop :=
  ∀ s t : State, environmentHeld s → step s = .next t → environmentHeld t

/-- Against the reference device at the handle's address a threshold, the first response taken, reads back as the decode
of what was encoded. -/
def Obligations.ThresholdReadsBack : Prop :=
  ∀ (s : State) (d : Device) (sel : Sel) (value : Word), s.handle.bound = true → s.env = .device d →
    d.addr = s.handle.addr → sel = .hyst ∨ sel = .limit →
    ∃ t u, exec (.wrtemp sel value) s = .next t ∧ exec (.rdtemp sel) (takeResponse t) = .next u
      ∧ u.responses = s.responses ++ [okResponse 0#32,
          okResponse (toInt32 (decTemp (encTempByte0 value.toInt) (encTempByte1 value.toInt)))]

/-- Against the reference device at the handle's address the configuration byte, the first response taken, reads back
whole. -/
def Obligations.ConfigurationReadsBack : Prop :=
  ∀ (s : State) (d : Device) (raw : Byte), s.handle.bound = true → s.env = .device d → d.addr = s.handle.addr →
    ∃ t u, exec (.wrcfg raw) s = .next t ∧ exec .rdcfg (takeResponse t) = .next u
      ∧ u.responses = s.responses ++ [okResponse 0#32, okResponse (cfgResult raw)]

/-- What an operation leaves of the reference device: its address; `DEV.AMBIENT`, but for the bits a WRCFG masks; and
each writable register, but for the operation that writes it (that every configuration write masks is log entry 11). -/
def Obligations.DeviceRegistersKept : Prop :=
  ∀ (i : Instr) (s t : State) (d : Device), s.env = .device d → exec i s = .next t →
    ∃ d', t.env = .device d' ∧ d'.addr = d.addr
      ∧ (d'.ambient = d.ambient ∧ d'.config = d.config
        ∨ ∃ raw, i = .wrcfg raw ∧ d'.config = raw ∧ d'.ambient = masked raw d.ambient)
      ∧ (d'.hyst = d.hyst ∨ (∃ v, i = .wrtemp .hyst v) ∨ ∃ f, i = .wrtempf .hyst f)
      ∧ (d'.limit = d.limit ∨ (∃ v, i = .wrtemp .limit v) ∨ ∃ f, i = .wrtempf .limit f)
      ∧ (d'.ptr = d.ptr ∨ t.trace ≠ s.trace)

/-! ### The command port and the response port (70_reset_and_hazards.md rule R176) -/

/-- Taking the response that stands at the response port makes the block ready again and changes nothing else; the
commands offered before still wait, in order (R176; that taking is an input in a list is log entry 2). -/
def Obligations.TakenResponseMakesReady : Prop :=
  ∀ (s : State) (r : Response) (rest : List Input), s.busy = false → s.pending = some r →
    firstSignal s.inputs = some (.take, rest) →
    step s = .next { s with pending := none, inputs := rest } ∧ ready { s with pending := none, inputs := rest } = true
      ∧ commandsOffered rest = commandsOffered s.inputs

/-- The ready signal "is low from acceptance until the response has been taken" (R176): no operation leaves it high, nor
does an illegal command, and only taking the response, or reset, raises it. -/
def Obligations.ReadyIsLowUntilTheResponseIsTaken : Prop :=
  (∀ (i : Instr) (s t : State), exec i s = .next t → ready t = false)
    ∧ (∀ (s t : State) (w : Command) (rest : List Input), s.inputs = .command w :: rest → ready s = true →
        step s = .next t → ready t = false)
    ∧ (∀ s t : State, ready s = false → step s = .next t → ready t = true →
        s.busy = false ∧ ∃ x rest, firstSignal s.inputs = some (x, rest) ∧ (x = .take ∨ x = .reset))

/-- While the command port is not ready a step accepts nothing: every command offered still waits, in order, and no
response or transaction is added. A ready block accepts at most the oldest command (R176). -/
def Obligations.WaitingCommandsAreKept : Prop :=
  (∀ s t : State, ready s = false → step s = .next t →
      commandsOffered t.inputs = commandsOffered s.inputs ∧ t.responses = s.responses ∧ t.trace = s.trace)
    ∧ (∀ s t : State, ready s = true → step s = .next t →
        commandsOffered t.inputs = commandsOffered s.inputs
          ∨ ∃ w, commandsOffered s.inputs = w :: commandsOffered t.inputs)

/-! ### The whole range of the float conversions (40_codec_temperature.md rule R101) -/

/-- Rule R101 for every finite operand. Exact product: `invalid` exactly from magnitude 2^31 on, else the product with its
fraction discarded (that it has the default's `invalid` cases is log entry 8). Default: the product rounded to the
nearest binary32, ties to even, and `invalid` exactly where that has magnitude 2^31 or more, which is from 2^31 - 64 on
(or is an infinity), else with its fraction discarded; -2^31 is `invalid` too. A replaced `F2V` is left out; binary32's
layout is log entry 17. -/
def Obligations.FiniteOperandsConvertByTruncation : Prop :=
  ∀ f : Word, floatFinite f = true →
    (f2vExact f = none ↔ 2 ^ 31 * 2 ^ 149 ≤ floatUnits f * 10000)
      ∧ (floatUnits f * 10000 < 2 ^ 31 * 2 ^ 149 →
          f2vExact f = some (truncated (floatNegative f) (floatUnits f * 10000)))
      ∧ (f2vRounded f = none ↔ (2 ^ 31 - 64) * 2 ^ 149 ≤ floatUnits f * 10000)
      ∧ (floatUnits f * 10000 < (2 ^ 31 - 64) * 2 ^ 149 →
          ∃ p, isNearestFloat p (floatUnits f * 10000) ∧ floatUnits p < 2 ^ 31 * 2 ^ 149
            ∧ f2vRounded f = some (truncated (floatNegative f) (floatUnits p)))
end

