-- ==== Sys2Proof/Laws/Float32.lean ====
section
/-! SUPPORT. What the binary32 functions of Machine/Float32.lean compute: a pattern's fields, the number a packed
magnitude stands for, and how far a rounded magnitude lies from the exact one. -/

namespace Sys2Proof.Machine

/-! ### The fields of a pattern -/

theorem pattern_toNat (n : Bool) (v : Nat) (hv : v < 2 ^ 31) :
    (BitVec.ofBool n ++ BitVec.ofNat 31 v : Word).toNat = (if n then 2 ^ 31 else 0) + v := by
  rw [BitVec.toNat_append, ← Nat.shiftLeft_add_eq_or_of_lt (by exact (BitVec.ofNat 31 v).isLt), BitVec.toNat_ofNat,
    Nat.mod_eq_of_lt hv]
  cases n <;> simp

theorem pattern_fields (n : Bool) (v : Nat) (hv : v < 2 ^ 31) :
    floatExponent (BitVec.ofBool n ++ BitVec.ofNat 31 v) = v / 2 ^ 23
      ∧ floatFraction (BitVec.ofBool n ++ BitVec.ofNat 31 v) = v % 2 ^ 23
      ∧ floatNegative (BitVec.ofBool n ++ BitVec.ofNat 31 v) = n := by
  have ht := pattern_toNat n v hv
  refine ⟨?_, ?_, ?_⟩
  · rw [floatExponent, BitVec.extractLsb'_toNat, ht, Nat.shiftRight_eq_div_pow]
    cases n <;> simp only [if_true, if_false, Bool.false_eq_true] <;> omega
  · rw [floatFraction, BitVec.extractLsb'_toNat, ht, Nat.shiftRight_eq_div_pow]
    cases n <;> simp only [if_true, if_false, Bool.false_eq_true] <;> omega
  · rw [floatNegative, BitVec.getLsbD_append]
    simp

/-! ### The number a packed magnitude stands for -/

/-- A magnitude of 24 significant bits below 2^128 is packed exactly. -/
theorem packFloat_exact (n : Bool) (m k : Nat) (hm : m < 2 ^ 24) (hk : k < 254) (hn : k = 0 ∨ 2 ^ 23 ≤ m) :
    floatFinite (packFloat n (m * 2 ^ k)) = true ∧ floatUnits (packFloat n (m * 2 ^ k)) = m * 2 ^ k
      ∧ floatNegative (packFloat n (m * 2 ^ k)) = n ∧ floatFraction (packFloat n (m * 2 ^ k)) = m % 2 ^ 23 := by
  have hl : Nat.log2 (m * 2 ^ k) - 23 = k := by
    by_cases hm' : 2 ^ 23 ≤ m
    · have h0 : m * 2 ^ k ≠ 0 := by positivity
      have h1 : 23 + k ≤ (m * 2 ^ k).log2 :=
        (Nat.le_log2 h0).mpr (by rw [Nat.pow_add]; exact Nat.mul_le_mul_right _ hm')
      have h2 : (m * 2 ^ k).log2 < 24 + k :=
        (Nat.log2_lt h0).mpr (by rw [Nat.pow_add]; exact Nat.mul_lt_mul_of_pos_right hm (by positivity))
      omega
    · obtain rfl : k = 0 := hn.resolve_right hm'
      rcases Nat.eq_zero_or_pos m with rfl | hp
      · decide
      · have : (m * 2 ^ 0).log2 < 23 := (Nat.log2_lt (by omega)).mpr (by omega)
        omega
  have hd : m * 2 ^ k / 2 ^ k = m := Nat.mul_div_cancel _ (by positivity)
  have hv : m + k * 2 ^ 23 < 2 ^ 31 := by omega
  have hp : packFloat n (m * 2 ^ k) = BitVec.ofBool n ++ BitVec.ofNat 31 (m + k * 2 ^ 23) := by
    simp only [packFloat, hl, hd, if_neg (show ¬ 254 ≤ k by omega)]
  obtain ⟨h1, h2, h3⟩ := pattern_fields n _ hv
  have hf : (m + k * 2 ^ 23) % 2 ^ 23 = m % 2 ^ 23 := by omega
  rw [hp]
  refine ⟨?_, ?_, h3, h2.trans hf⟩
  · simp only [floatFinite, h1, bne_iff_ne]; omega
  · rw [floatUnits, h1, h2, hf]
    rcases hn with rfl | hn
    · by_cases hm' : m < 2 ^ 23
      · rw [if_pos (by omega), Nat.mod_eq_of_lt hm', Nat.pow_zero, Nat.mul_one]
      · rw [if_neg (by omega), show (m + 0 * 2 ^ 23) / 2 ^ 23 - 1 = 0 by omega]; omega
    · rw [if_neg (by omega), show (m + k * 2 ^ 23) / 2 ^ 23 - 1 = k by omega]
      congr 1; omega

/-- Every finite pattern's magnitude has 24 significant bits. -/
theorem floatUnits_form (q : Word) : ∃ m k, m < 2 ^ 24 ∧ floatUnits q = m * 2 ^ k := by
  have hf : floatFraction q < 2 ^ 23 := (q.extractLsb' 0 23).isLt
  by_cases h : floatExponent q = 0
  · exact ⟨floatFraction q, 0, by omega, by simp [floatUnits, h]⟩
  · exact ⟨2 ^ 23 + floatFraction q, floatExponent q - 1, by omega, by simp [floatUnits, h]⟩

/-! ### Rounding -/

/-- The rounded quotient is at most half a unit away, and even when exactly half a unit away. -/
theorem roundNearestEven_spec (a b : Nat) (hb : 0 < b) :
    2 * (((roundNearestEven a b * b : Nat) : Int) - a).natAbs ≤ b
      ∧ (2 * (((roundNearestEven a b * b : Nat) : Int) - a).natAbs = b → roundNearestEven a b % 2 = 0) := by
  have hd := Nat.div_add_mod a b
  have hm := Nat.mod_lt a hb
  have h1 : (a / b + 1) * b = b * (a / b) + b := by ring
  have h0 : a / b * b = b * (a / b) := by ring
  unfold roundNearestEven
  generalize a / b = d at *
  generalize a % b = r at *
  generalize b * d = z at *
  split_ifs with c1 c2
  · rw [h0]; omega
  · rw [h1]; omega
  · rcases Nat.mod_two_eq_zero_or_one d with h | h
    · rw [h, Nat.add_zero, h0]; omega
    · rw [h, h1]; omega

/-- A whole number of units is rounded to 24 significant bits: to itself where it has them, else to the nearest multiple
of the weight of its last significant bit. -/
theorem roundUnits_one (a : Nat) :
    ∃ m k, roundUnits a 1 = m * 2 ^ k ∧ m ≤ 2 ^ 24 ∧ (k = 0 ∨ 2 ^ 23 ≤ m)
      ∧ ((k = 0 ∧ m = a ∧ m < 2 ^ 24) ∨ (2 ^ 23 * 2 ^ k ≤ a ∧ a < 2 ^ 24 * 2 ^ k))
      ∧ 2 * (((m * 2 ^ k : Nat) : Int) - a).natAbs ≤ 2 ^ k
      ∧ (2 * (((m * 2 ^ k : Nat) : Int) - a).natAbs = 2 ^ k → m % 2 = 0) := by
  refine ⟨roundNearestEven a (2 ^ (a.log2 - 23)), a.log2 - 23, by simp [roundUnits], ?_⟩
  obtain ⟨h1, h2⟩ := roundNearestEven_spec a (2 ^ (a.log2 - 23)) (by positivity)
  by_cases hs : a.log2 - 23 = 0
  · have ha : a < 2 ^ 24 := Nat.lt_of_lt_of_le Nat.lt_log2_self (Nat.pow_le_pow_right (by omega) (by omega))
    rw [hs] at h1 h2 ⊢
    have : roundNearestEven a (2 ^ 0) = a := by simp only [Nat.pow_zero, Nat.mul_one] at h1; simp only [Nat.pow_zero]; omega
    exact ⟨by omega, .inl rfl, .inl ⟨rfl, this, by omega⟩, h1, h2⟩
  · have h0 : a ≠ 0 := fun h => hs (by subst h; decide)
    have hl : 2 ^ 23 * 2 ^ (a.log2 - 23) ≤ a := by
      rw [← Nat.pow_add, show 23 + (a.log2 - 23) = a.log2 by omega]; exact Nat.log2_self_le h0
    have hu : a < 2 ^ 24 * 2 ^ (a.log2 - 23) := by
      rw [← Nat.pow_add, show 24 + (a.log2 - 23) = a.log2 + 1 by omega]; exact Nat.lt_log2_self
    generalize 2 ^ (a.log2 - 23) = r at *
    generalize roundNearestEven a r = m at *
    refine ⟨?_, .inr ?_, .inr ⟨hl, hu⟩, h1, h2⟩
    · by_contra hm
      have : (2 ^ 24 + 1) * r ≤ m * r := Nat.mul_le_mul_right _ (by omega)
      omega
    · by_contra hm
      have : m * r ≤ (2 ^ 23 - 1) * r := Nat.mul_le_mul_right _ (by omega)
      omega

/-- No number of 24 significant bits lies nearer to `a` than the rounded one does, and one that lies as near is the rounded
one, unless that is even. -/
theorem roundUnits_one_nearest {a m k m' k' : Nat} (hf : (k = 0 ∧ m = a) ∨ 2 ^ 23 * 2 ^ k ≤ a)
    (h1 : 2 * (((m * 2 ^ k : Nat) : Int) - a).natAbs ≤ 2 ^ k)
    (h2 : 2 * (((m * 2 ^ k : Nat) : Int) - a).natAbs = 2 ^ k → m % 2 = 0) (hm' : m' < 2 ^ 24) :
    (((m * 2 ^ k : Nat) : Int) - a).natAbs ≤ (((m' * 2 ^ k' : Nat) : Int) - a).natAbs
      ∧ ((((m * 2 ^ k : Nat) : Int) - a).natAbs = (((m' * 2 ^ k' : Nat) : Int) - a).natAbs →
          m' * 2 ^ k' = m * 2 ^ k ∨ m % 2 = 0) := by
  rcases hf with ⟨rfl, rfl⟩ | hf
  · simp only [Nat.pow_zero, Nat.mul_one, sub_self, Int.natAbs_zero]; omega
  · have multiple : ∀ y, (((m * 2 ^ k : Nat) : Int) - a).natAbs ≤ (((y * 2 ^ k : Nat) : Int) - a).natAbs
        ∧ ((((m * 2 ^ k : Nat) : Int) - a).natAbs = (((y * 2 ^ k : Nat) : Int) - a).natAbs →
            y * 2 ^ k = m * 2 ^ k ∨ m % 2 = 0) := by
      intro y
      generalize 2 ^ k = r at *
      rcases Nat.lt_trichotomy y m with hy | rfl | hy
      · have : (y + 1) * r ≤ m * r := Nat.mul_le_mul_right _ hy
        rw [Nat.succ_mul] at this
        omega
      · simp
      · have : (m + 1) * r ≤ y * r := Nat.mul_le_mul_right _ hy
        rw [Nat.succ_mul] at this
        omega
    by_cases hk : k ≤ k'
    · obtain ⟨d, rfl⟩ := Nat.exists_eq_add_of_le hk
      rw [show m' * 2 ^ (k + d) = m' * 2 ^ d * 2 ^ k by ring]
      exact multiple _
    · have hlt : m' * 2 ^ k' < 2 ^ 23 * 2 ^ k := by
        calc m' * 2 ^ k' < 2 ^ 24 * 2 ^ k' := Nat.mul_lt_mul_of_pos_right hm' (by positivity)
          _ = 2 ^ 23 * 2 ^ (k' + 1) := by ring
          _ ≤ 2 ^ 23 * 2 ^ k := Nat.mul_le_mul_left _ (Nat.pow_le_pow_right (by omega) (by omega))
      have h := (multiple (2 ^ 23)).1
      omega

end Sys2Proof.Machine
end

