-- ==== Sys2Proof/Laws/State.lean ====
section
/-! SUPPORT. What each shared update of the state leaves in each field, so that no later proof unfolds a record update. -/

namespace Sys2Proof.Machine

/-! ### respond -/

@[simp] theorem respond_handle (k : Kind) (c r : Word) (s : State) :
    (respond k c r s).handle = s.handle := rfl
@[simp] theorem respond_params (k : Kind) (c r : Word) (s : State) :
    (respond k c r s).params = s.params := rfl
@[simp] theorem respond_inputs (k : Kind) (c r : Word) (s : State) :
    (respond k c r s).inputs = s.inputs := rfl
@[simp] theorem respond_busy (k : Kind) (c r : Word) (s : State) :
    (respond k c r s).busy = s.busy := rfl
@[simp] theorem respond_pending (k : Kind) (c r : Word) (s : State) :
    (respond k c r s).pending = some { kind := k, code := c, result := r } := rfl
@[simp] theorem respond_responses (k : Kind) (c r : Word) (s : State) :
    (respond k c r s).responses = s.responses ++ [{ kind := k, code := c, result := r }] := rfl
@[simp] theorem respond_trace (k : Kind) (c r : Word) (s : State) :
    (respond k c r s).trace = s.trace := rfl
@[simp] theorem respond_env (k : Kind) (c r : Word) (s : State) :
    (respond k c r s).env = s.env := rfl
@[simp] theorem respond_fresh (k : Kind) (c r : Word) (s : State) :
    (respond k c r s).fresh = s.fresh := rfl

/-! ### respondOk -/

@[simp] theorem respondOk_handle (r : Word) (s : State) :
    (respondOk r s).handle = s.handle := rfl
@[simp] theorem respondOk_params (r : Word) (s : State) :
    (respondOk r s).params = s.params := rfl
@[simp] theorem respondOk_inputs (r : Word) (s : State) :
    (respondOk r s).inputs = s.inputs := rfl
@[simp] theorem respondOk_busy (r : Word) (s : State) :
    (respondOk r s).busy = s.busy := rfl
@[simp] theorem respondOk_pending (r : Word) (s : State) :
    (respondOk r s).pending = some { kind := .ok, code := 0#32, result := r } := rfl
@[simp] theorem respondOk_responses (r : Word) (s : State) :
    (respondOk r s).responses = s.responses ++ [{ kind := .ok, code := 0#32, result := r }] := rfl
@[simp] theorem respondOk_trace (r : Word) (s : State) :
    (respondOk r s).trace = s.trace := rfl
@[simp] theorem respondOk_env (r : Word) (s : State) :
    (respondOk r s).env = s.env := rfl
@[simp] theorem respondOk_fresh (r : Word) (s : State) :
    (respondOk r s).fresh = s.fresh := rfl

/-! ### raise -/

@[simp] theorem raise_handle (e : Exception) (s : State) :
    (raise e s).handle = s.handle := rfl
@[simp] theorem raise_params (e : Exception) (s : State) :
    (raise e s).params = s.params := rfl
@[simp] theorem raise_inputs (e : Exception) (s : State) :
    (raise e s).inputs = s.inputs := rfl
@[simp] theorem raise_busy (e : Exception) (s : State) :
    (raise e s).busy = s.busy := rfl
@[simp] theorem raise_pending (e : Exception) (s : State) :
    (raise e s).pending =
      some { kind := exceptionKind e, code := exceptionCode e, result := Config.freeWord s.fresh } := rfl
@[simp] theorem raise_responses (e : Exception) (s : State) :
    (raise e s).responses = s.responses ++
      [{ kind := exceptionKind e, code := exceptionCode e, result := Config.freeWord s.fresh }] := rfl
@[simp] theorem raise_trace (e : Exception) (s : State) :
    (raise e s).trace = s.trace := rfl
@[simp] theorem raise_env (e : Exception) (s : State) :
    (raise e s).env = s.env := rfl
@[simp] theorem raise_fresh (e : Exception) (s : State) :
    (raise e s).fresh = s.fresh + 1 := rfl

/-! ### putScratch -/

@[simp] theorem putScratch_handle (i : Nat) (v : List Byte) (s : State) :
    (putScratch i v s).handle = { s.handle with scratch := s.handle.scratch.putAll i v } := rfl
@[simp] theorem putScratch_params (i : Nat) (v : List Byte) (s : State) :
    (putScratch i v s).params = s.params := rfl
@[simp] theorem putScratch_inputs (i : Nat) (v : List Byte) (s : State) :
    (putScratch i v s).inputs = s.inputs := rfl
@[simp] theorem putScratch_busy (i : Nat) (v : List Byte) (s : State) :
    (putScratch i v s).busy = s.busy := rfl
@[simp] theorem putScratch_pending (i : Nat) (v : List Byte) (s : State) :
    (putScratch i v s).pending = s.pending := rfl
@[simp] theorem putScratch_responses (i : Nat) (v : List Byte) (s : State) :
    (putScratch i v s).responses = s.responses := rfl
@[simp] theorem putScratch_trace (i : Nat) (v : List Byte) (s : State) :
    (putScratch i v s).trace = s.trace := rfl
@[simp] theorem putScratch_env (i : Nat) (v : List Byte) (s : State) :
    (putScratch i v s).env = s.env := rfl
@[simp] theorem putScratch_fresh (i : Nat) (v : List Byte) (s : State) :
    (putScratch i v s).fresh = s.fresh := rfl

/-! ### loseScratch -/

@[simp] theorem loseScratch_handle (s : State) :
    (loseScratch s).handle = { s.handle with scratch := drawnScratch s.fresh } := rfl
@[simp] theorem loseScratch_params (s : State) :
    (loseScratch s).params = s.params := rfl
@[simp] theorem loseScratch_inputs (s : State) :
    (loseScratch s).inputs = s.inputs := rfl
@[simp] theorem loseScratch_busy (s : State) :
    (loseScratch s).busy = s.busy := rfl
@[simp] theorem loseScratch_pending (s : State) :
    (loseScratch s).pending = s.pending := rfl
@[simp] theorem loseScratch_responses (s : State) :
    (loseScratch s).responses = s.responses := rfl
@[simp] theorem loseScratch_trace (s : State) :
    (loseScratch s).trace = s.trace := rfl
@[simp] theorem loseScratch_env (s : State) :
    (loseScratch s).env = s.env := rfl
@[simp] theorem loseScratch_fresh (s : State) :
    (loseScratch s).fresh = s.fresh + 1 := rfl

/-! ### transact -/

@[simp] theorem transact_handle (q : Request) (s : State) :
    (transact q s).handle = s.handle := rfl
@[simp] theorem transact_params (q : Request) (s : State) :
    (transact q s).params = s.params := rfl
@[simp] theorem transact_inputs (q : Request) (s : State) :
    (transact q s).inputs = s.inputs := rfl
@[simp] theorem transact_busy (q : Request) (s : State) :
    (transact q s).busy = s.busy := rfl
@[simp] theorem transact_pending (q : Request) (s : State) :
    (transact q s).pending = s.pending := rfl
@[simp] theorem transact_responses (q : Request) (s : State) :
    (transact q s).responses = s.responses := rfl
@[simp] theorem transact_trace (q : Request) (s : State) :
    (transact q s).trace = s.trace ++ [traceEntry q (environmentAnswer q s)] := rfl
@[simp] theorem transact_env (q : Request) (s : State) :
    (transact q s).env = environmentAfter q s := rfl
@[simp] theorem transact_fresh (q : Request) (s : State) :
    (transact q s).fresh = s.fresh + 1 := rfl

/-! ### resetHandle -/

@[simp] theorem resetHandle_handle (s : State) :
    (resetHandle s).handle = { bound := false, addr := Config.freeAddr s.fresh, scratch := drawnScratch s.fresh } := rfl
@[simp] theorem resetHandle_params (s : State) :
    (resetHandle s).params = s.params := rfl
@[simp] theorem resetHandle_inputs (s : State) :
    (resetHandle s).inputs = s.inputs := rfl
@[simp] theorem resetHandle_busy (s : State) :
    (resetHandle s).busy = s.busy := rfl
@[simp] theorem resetHandle_pending (s : State) :
    (resetHandle s).pending = none := rfl
@[simp] theorem resetHandle_responses (s : State) :
    (resetHandle s).responses = s.responses := rfl
@[simp] theorem resetHandle_trace (s : State) :
    (resetHandle s).trace = s.trace := rfl
@[simp] theorem resetHandle_env (s : State) :
    (resetHandle s).env = s.env := rfl
@[simp] theorem resetHandle_fresh (s : State) :
    (resetHandle s).fresh = s.fresh + 1 := rfl

/-! ### newMeasurement -/

@[simp] theorem measure_handle (r : TempReg) (s : State) :
    (newMeasurement r s).handle = s.handle := rfl
@[simp] theorem measure_params (r : TempReg) (s : State) :
    (newMeasurement r s).params = s.params := rfl
@[simp] theorem measure_inputs (r : TempReg) (s : State) :
    (newMeasurement r s).inputs = s.inputs := rfl
@[simp] theorem measure_busy (r : TempReg) (s : State) :
    (newMeasurement r s).busy = s.busy := rfl
@[simp] theorem measure_pending (r : TempReg) (s : State) :
    (newMeasurement r s).pending = s.pending := rfl
@[simp] theorem measure_responses (r : TempReg) (s : State) :
    (newMeasurement r s).responses = s.responses := rfl
@[simp] theorem measure_trace (r : TempReg) (s : State) :
    (newMeasurement r s).trace = s.trace := rfl
@[simp] theorem measure_fresh (r : TempReg) (s : State) :
    (newMeasurement r s).fresh = s.fresh := rfl

/-! ### takeResponse -/

@[simp] theorem takeResponse_handle (s : State) :
    (takeResponse s).handle = s.handle := rfl
@[simp] theorem takeResponse_params (s : State) :
    (takeResponse s).params = s.params := rfl
@[simp] theorem takeResponse_inputs (s : State) :
    (takeResponse s).inputs = s.inputs := rfl
@[simp] theorem takeResponse_busy (s : State) :
    (takeResponse s).busy = s.busy := rfl
@[simp] theorem takeResponse_pending (s : State) :
    (takeResponse s).pending = none := rfl
@[simp] theorem takeResponse_responses (s : State) :
    (takeResponse s).responses = s.responses := rfl
@[simp] theorem takeResponse_trace (s : State) :
    (takeResponse s).trace = s.trace := rfl
@[simp] theorem takeResponse_env (s : State) :
    (takeResponse s).env = s.env := rfl
@[simp] theorem takeResponse_fresh (s : State) :
    (takeResponse s).fresh = s.fresh := rfl

/-! ### offerFirst -/

@[simp] theorem offerFirst_handle (w : Command) (s : State) :
    (offerFirst w s).handle = s.handle := rfl
@[simp] theorem offerFirst_params (w : Command) (s : State) :
    (offerFirst w s).params = s.params := rfl
@[simp] theorem offerFirst_inputs (w : Command) (s : State) :
    (offerFirst w s).inputs = .command w :: s.inputs := rfl
@[simp] theorem offerFirst_busy (w : Command) (s : State) :
    (offerFirst w s).busy = false := rfl
@[simp] theorem offerFirst_pending (w : Command) (s : State) :
    (offerFirst w s).pending = none := rfl
@[simp] theorem offerFirst_responses (w : Command) (s : State) :
    (offerFirst w s).responses = s.responses := rfl
@[simp] theorem offerFirst_trace (w : Command) (s : State) :
    (offerFirst w s).trace = s.trace := rfl
@[simp] theorem offerFirst_env (w : Command) (s : State) :
    (offerFirst w s).env = s.env := rfl
@[simp] theorem offerFirst_fresh (w : Command) (s : State) :
    (offerFirst w s).fresh = s.fresh := rfl

end Sys2Proof.Machine
end

