-- ==== Sys2Proof/Laws/Ops.lean ====
section
/-! SUPPORT. One lemma for each way a shared operation can end; proofs cite these and do not unfold the operation. -/

namespace Sys2Proof.Machine

/-! ### The environment does not see the scratch buffer -/

@[simp] theorem environmentAnswer_putScratch (q : Request) (i : Nat) (v : List Byte) (s : State) :
    environmentAnswer q (putScratch i v s) = environmentAnswer q s := rfl

@[simp] theorem environmentAfter_putScratch (q : Request) (i : Nat) (v : List Byte) (s : State) :
    environmentAfter q (putScratch i v s) = environmentAfter q s := rfl

theorem loseScratch_transact_putScratch (q : Request) (i : Nat) (v : List Byte) (s : State) :
    loseScratch (transact q (putScratch i v s)) = loseScratch (transact q s) := rfl

@[simp] theorem traceEntry_write (a : BusAddr) (v : List Byte) (x : Answer) :
    traceEntry (.write a v) x = .write a v (answerStatus x) := rfl

@[simp] theorem traceEntry_read (a : BusAddr) (n : Nat) (x : Answer) :
    traceEntry (.read a n) x = .read a n (answerData n x) := rfl

/-! ### The register read sequence, concluded (20_memory.md rule R37) -/

variable {sel : Sel} {n : Nat} {s : State} {f : Byte × Byte → Word} {st x y : BitVec 32} {a b : Byte}

theorem conclude_memRead_selectSilent (h : environmentAnswer (selectRequest sel s) s = .silent) :
    conclude (memRead sel n s) f
      = { transact (selectRequest sel s) (putScratch 0 [selectByte sel] s) with busy := true } := by
  simp only [selectRequest] at h
  simp [memRead, conclude, selectRequest, Scratch.putAll, Scratch.put, h]

theorem conclude_memRead_selectFailed (h : environmentAnswer (selectRequest sel s) s = .answered st a b)
    (hst : st ≠ 0#32) :
    conclude (memRead sel n s) f = raise (.transportFailure st) (loseScratch (transact (selectRequest sel s) s)) := by
  simp only [selectRequest] at h
  simp [memRead, conclude, selectRequest, Scratch.putAll, Scratch.put, h, hst]
  rfl

variable {c d : Byte}

theorem conclude_memRead_dataSilent (h : environmentAnswer (selectRequest sel s) s = .answered 0#32 a b)
    (h2 : environmentAnswer (.read s.handle.addr n) (transact (selectRequest sel s) s) = .silent) :
    conclude (memRead sel n s) f
      = { transact (.read s.handle.addr n) (transact (selectRequest sel s) (putScratch 0 [selectByte sel] s))
          with busy := true } := by
  have h2' : environmentAnswer (.read s.handle.addr n)
      (transact (.write s.handle.addr [selectByte sel]) (putScratch 0 [selectByte sel] s)) = .silent := h2
  simp only [selectRequest] at h
  simp only [memRead, conclude, selectRequest, Scratch.putAll, Scratch.put, putScratch_handle, transact_handle,
    environmentAnswer_putScratch, h, if_true, h2']

theorem conclude_memRead_dataFailed (h : environmentAnswer (selectRequest sel s) s = .answered 0#32 a b)
    (h2 : environmentAnswer (.read s.handle.addr n) (transact (selectRequest sel s) s) = .answered st c d)
    (hst : st ≠ 0#32) :
    conclude (memRead sel n s) f
      = raise (.transportFailure st)
          (loseScratch (transact (.read s.handle.addr n) (transact (selectRequest sel s) s))) := by
  have h2' : environmentAnswer (.read s.handle.addr n)
      (transact (.write s.handle.addr [selectByte sel]) (putScratch 0 [selectByte sel] s)) = .answered st c d := h2
  simp only [selectRequest] at h
  simp [memRead, conclude, selectRequest, Scratch.putAll, Scratch.put, h]
  simp [h2', hst]
  rfl

theorem conclude_memRead_done (h : environmentAnswer (selectRequest sel s) s = .answered 0#32 a b)
    (h2 : environmentAnswer (.read s.handle.addr n) (transact (selectRequest sel s) s) = .answered 0#32 c d) :
    conclude (memRead sel n s) f
      = respondOk (f (c, d))
          (loseScratch (transact (.read s.handle.addr n) (transact (selectRequest sel s) s))) := by
  have h2' : environmentAnswer (.read s.handle.addr n)
      (transact (.write s.handle.addr [selectByte sel]) (putScratch 0 [selectByte sel] s)) = .answered 0#32 c d := h2
  simp only [selectRequest] at h
  simp [memRead, conclude, selectRequest, Scratch.putAll, Scratch.put, h]
  simp [h2']
  rfl

/-- Everything a concluded register read can do, with the answers that decide it. -/
theorem conclude_memRead_cases (sel : Sel) (n : Nat) (f : Byte × Byte → Word) (s : State) :
    (environmentAnswer (selectRequest sel s) s = .silent
        ∧ conclude (memRead sel n s) f
          = { transact (selectRequest sel s) (putScratch 0 [selectByte sel] s) with busy := true })
      ∨ (∃ st a b, st ≠ 0#32 ∧ environmentAnswer (selectRequest sel s) s = .answered st a b
        ∧ conclude (memRead sel n s) f
          = raise (.transportFailure st) (loseScratch (transact (selectRequest sel s) s)))
      ∨ (∃ a b, environmentAnswer (selectRequest sel s) s = .answered 0#32 a b
        ∧ environmentAnswer (.read s.handle.addr n) (transact (selectRequest sel s) s) = .silent
        ∧ conclude (memRead sel n s) f
          = { transact (.read s.handle.addr n) (transact (selectRequest sel s) (putScratch 0 [selectByte sel] s))
              with busy := true })
      ∨ (∃ a b st c d, st ≠ 0#32 ∧ environmentAnswer (selectRequest sel s) s = .answered 0#32 a b
        ∧ environmentAnswer (.read s.handle.addr n) (transact (selectRequest sel s) s) = .answered st c d
        ∧ conclude (memRead sel n s) f
          = raise (.transportFailure st)
              (loseScratch (transact (.read s.handle.addr n) (transact (selectRequest sel s) s))))
      ∨ (∃ a b c d, environmentAnswer (selectRequest sel s) s = .answered 0#32 a b
        ∧ environmentAnswer (.read s.handle.addr n) (transact (selectRequest sel s) s) = .answered 0#32 c d
        ∧ conclude (memRead sel n s) f
          = respondOk (f (c, d))
              (loseScratch (transact (.read s.handle.addr n) (transact (selectRequest sel s) s)))) := by
  cases h : environmentAnswer (selectRequest sel s) s with
  | silent => exact .inl ⟨rfl, conclude_memRead_selectSilent h⟩
  | answered st a b =>
    by_cases h0 : st = 0#32
    · subst h0
      cases h2 : environmentAnswer (.read s.handle.addr n) (transact (selectRequest sel s) s) with
      | silent => exact .inr (.inr (.inl ⟨a, b, rfl, rfl, conclude_memRead_dataSilent h h2⟩))
      | answered st c d =>
        by_cases h1 : st = 0#32
        · subst h1
          exact .inr (.inr (.inr (.inr ⟨a, b, c, d, rfl, rfl, conclude_memRead_done h h2⟩)))
        · exact .inr (.inr (.inr (.inl ⟨a, b, st, c, d, h1, rfl, rfl, conclude_memRead_dataFailed h h2 h1⟩)))
    · exact .inr (.inl ⟨st, a, b, h0, rfl, conclude_memRead_selectFailed h h0⟩)

/-! ### The register write, concluded (20_memory.md rule R38) -/

/-- The bytes a register write sends are the select byte and a payload of one or two bytes. -/
theorem sentBytes (v : List Byte) (hv : v.length = 1 ∨ v.length = 2) (k : Scratch) (p : Byte) :
    ((k.putAll 0 [p]).putAll 1 v).bytes.take (v.length + 1) = p :: v := by
  match v, hv with
  | [_], _ => rfl
  | [_, _], _ => rfl

variable {v : List Byte} {g : Unit → Word}

theorem memWrite_eq (hv : v.length = 1 ∨ v.length = 2) :
    memWrite sel v s =
      (transact (storeRequest sel v s) (putScratch 1 v (putScratch 0 [selectByte sel] s)),
        match environmentAnswer (storeRequest sel v s) s with
        | .silent => .waiting
        | .answered st _ _ => if st = 0#32 then .done () else .failed st) := by
  have hb := sentBytes v hv s.handle.scratch (selectByte sel)
  have hq : (Request.write s.handle.addr
      (((s.handle.scratch.putAll 0 [selectByte sel]).putAll 1 v).bytes.take (v.length + 1)))
        = storeRequest sel v s := by rw [hb]; rfl
  simp only [memWrite, putScratch_handle, hq, environmentAnswer_putScratch]
  cases environmentAnswer (storeRequest sel v s) s with
  | silent => rfl
  | answered st x y => by_cases h : st = 0#32 <;> simp [h]

theorem conclude_memWrite_silent (hv : v.length = 1 ∨ v.length = 2)
    (h : environmentAnswer (storeRequest sel v s) s = .silent) :
    conclude (memWrite sel v s) g
      = { transact (storeRequest sel v s) (putScratch 1 v (putScratch 0 [selectByte sel] s)) with busy := true } := by
  simp [memWrite_eq hv, conclude, h]

theorem conclude_memWrite_failed (hv : v.length = 1 ∨ v.length = 2)
    (h : environmentAnswer (storeRequest sel v s) s = .answered st a b) (hst : st ≠ 0#32) :
    conclude (memWrite sel v s) g = raise (.transportFailure st) (loseScratch (transact (storeRequest sel v s) s)) := by
  simp [memWrite_eq hv, conclude, h, hst]
  rfl

theorem conclude_memWrite_done (hv : v.length = 1 ∨ v.length = 2)
    (h : environmentAnswer (storeRequest sel v s) s = .answered 0#32 a b) :
    conclude (memWrite sel v s) g = respondOk (g ()) (loseScratch (transact (storeRequest sel v s) s)) := by
  simp [memWrite_eq hv, conclude, h]
  rfl

/-- Everything a concluded register write can do, with the answer that decides it. -/
theorem conclude_memWrite_cases (sel : Sel) (v : List Byte) (g : Unit → Word) (s : State)
    (hv : v.length = 1 ∨ v.length = 2) :
    (environmentAnswer (storeRequest sel v s) s = .silent
        ∧ conclude (memWrite sel v s) g
          = { transact (storeRequest sel v s) (putScratch 1 v (putScratch 0 [selectByte sel] s)) with busy := true })
      ∨ (∃ st a b, st ≠ 0#32 ∧ environmentAnswer (storeRequest sel v s) s = .answered st a b
        ∧ conclude (memWrite sel v s) g
          = raise (.transportFailure st) (loseScratch (transact (storeRequest sel v s) s)))
      ∨ (∃ a b, environmentAnswer (storeRequest sel v s) s = .answered 0#32 a b
        ∧ conclude (memWrite sel v s) g
          = respondOk (g ()) (loseScratch (transact (storeRequest sel v s) s))) := by
  cases h : environmentAnswer (storeRequest sel v s) s with
  | silent => exact .inl ⟨rfl, conclude_memWrite_silent hv h⟩
  | answered st a b =>
    by_cases h0 : st = 0#32
    · subst h0
      exact .inr (.inr ⟨a, b, rfl, conclude_memWrite_done hv h⟩)
    · exact .inr (.inl ⟨st, a, b, h0, rfl, conclude_memWrite_failed hv h h0⟩)

/-! ### The checks of 42_bus_operations.md rule R120 -/

variable {legal : Bool} {body : State → State}

theorem busOperation_illegal (h : legal = false) :
    busOperation legal body s = .next (raise .illegalCommand s) := by simp [busOperation, h]

theorem busOperation_unbound (h : legal = true) (hb : s.handle.bound = false) :
    busOperation legal body s = .next (raise .unboundDevice (loseScratch s)) := by simp [busOperation, h, hb]

theorem busOperation_bound (h : legal = true) (hb : s.handle.bound = true) :
    busOperation legal body s = .next (body s) := by simp [busOperation, h, hb]

/-- Everything `busOperation` can do. -/
theorem busOperation_cases (legal : Bool) (body : State → State) (s : State) :
    (legal = false ∧ busOperation legal body s = .next (raise .illegalCommand s))
      ∨ (legal = true ∧ s.handle.bound = false 
          ∧ busOperation legal body s = .next (raise .unboundDevice (loseScratch s)))
      ∨ (legal = true ∧ s.handle.bound = true ∧ busOperation legal body s = .next (body s)) := by
  unfold busOperation
  cases legal <;> cases s.handle.bound <;> simp

/-! ### Taking an input -/

theorem ready_iff : ready s = true ↔ s.busy = false ∧ s.pending = none := by
  simp [ready, Option.isNone_iff_eq_none]

theorem fetch_ready (h : ready s = true) : fetch s = fetchReady s := if_pos h

theorem fetch_waiting (h : ready s = false) : fetch s = fetchWaiting s := if_neg (by simp [h])

theorem firstSignal_head (x : Signal) (rest : List Input) : firstSignal (.signal x :: rest) = some (x, rest) := rfl

theorem firstSignal_none {l : List Input} (h : ∀ x ∈ l, ∃ w, x = .command w) : firstSignal l = none := by
  induction l with
  | nil => rfl
  | cons a l ih =>
    obtain ⟨w, rfl⟩ := h a (.head _)
    simp [firstSignal, ih (fun x hx => h x (.tail _ hx))]

/-- The signal found is one of the inputs. -/
theorem firstSignal_mem {l rest : List Input} {x : Signal} (h : firstSignal l = some (x, rest)) : .signal x ∈ l := by
  induction l generalizing rest with
  | nil => cases h
  | cons a l ih =>
    cases a with
    | signal y => cases h; exact .head _
    | command w =>
      cases hl : firstSignal l with
      | none => simp [firstSignal, hl] at h
      | some p => simp [firstSignal, hl] at h; exact .tail _ (ih (rest := p.2) (by rw [hl, ← h.1]))

/-- Taking the oldest signal leaves every waiting command, in order. -/
theorem commandsOffered_firstSignal {l rest : List Input} {x : Signal} (h : firstSignal l = some (x, rest)) :
    commandsOffered rest = commandsOffered l := by
  induction l generalizing rest with
  | nil => cases h
  | cons a l ih =>
    cases a with
    | signal y => cases h; rfl
    | command w =>
      cases hl : firstSignal l with
      | none => simp [firstSignal, hl] at h
      | some p =>
        simp [firstSignal, hl] at h
        rw [← h.2]
        simp [commandsOffered, ih (rest := p.2) (by rw [hl, ← h.1])]

theorem step_command {w : Command} {rest : List Input} {i : Instr} (hr : ready s = true)
    (hi : s.inputs = .command w :: rest) (hd : decode w = .ok i) : step s = exec i { s with inputs := rest } := by
  simp [step, fetch_ready hr, fetchReady, hi, hd]

theorem step_illegal {w : Command} {rest : List Input} {e : DecodeError} (hr : ready s = true)
    (hi : s.inputs = .command w :: rest) (hd : decode w = .error e) :
    step s = .next (raise .illegalCommand { s with inputs := rest }) := by
  simp [step, fetch_ready hr, fetchReady, hi, hd]

theorem step_idle (hr : ready s = true) (hi : s.inputs = []) : step s = .next s := by
  simp [step, fetch_ready hr, fetchReady, hi]

theorem step_resetInFlight (hb : s.busy = true) (hr : .signal .reset ∈ s.inputs) :
    step s = .refused .resetInFlight := by
  simp [step, fetch_waiting (s := s) (by simp [ready, hb]), fetchWaiting, hb, hr]

/-- The oldest signal is received: by a ready block if nothing is offered before it, and otherwise over the heads of the
commands that wait. -/
theorem step_signal {x : Signal} {rest : List Input} (hi : firstSignal s.inputs = some (x, rest))
    (hr : ready s = true → s.inputs = .signal x :: rest) (hb : s.busy = true → .signal .reset ∉ s.inputs) :
    step s = .next (receive x { s with inputs := rest }) := by
  cases h : ready s with
  | true => simp [step, fetch_ready h, fetchReady, hr h]
  | false =>
    have : ¬ (s.busy = true ∧ Input.signal .reset ∈ s.inputs) := fun ⟨a, b⟩ => hb a b
    simp [step, fetch_waiting h, fetchWaiting, this, hi]

/-- A block that is not ready waits while no signal comes. -/
theorem step_wait (hr : ready s = false) (hi : firstSignal s.inputs = none) (hb : s.busy = true → .signal .reset ∉ s.inputs) :
    step s = .next s := by
  have : ¬ (s.busy = true ∧ Input.signal .reset ∈ s.inputs) := fun ⟨a, b⟩ => hb a b
  simp [step, fetch_waiting hr, fetchWaiting, this, hi]

/-- Everything a step can do. -/
theorem step_cases (s : State) :
    (s.busy = true ∧ Input.signal .reset ∈ s.inputs ∧ step s = .refused .resetInFlight)
      ∨ (step s = .next s)
      ∨ (∃ x rest, firstSignal s.inputs = some (x, rest) ∧ (ready s = true → s.inputs = .signal x :: rest)
          ∧ (x = .reset → s.busy = false) ∧ step s = .next (receive x { s with inputs := rest }))
      ∨ (ready s = true ∧ ∃ w rest e, s.inputs = .command w :: rest ∧ decode w = .error e
          ∧ step s = .next (raise .illegalCommand { s with inputs := rest }))
      ∨ (ready s = true ∧ ∃ w rest i, s.inputs = .command w :: rest ∧ decode w = .ok i
          ∧ step s = exec i { s with inputs := rest }) := by
  cases hr : ready s with
  | true =>
    have hb := (ready_iff.mp hr).1
    match hi : s.inputs with
    | [] => exact .inr (.inl (step_idle hr hi))
    | .signal x :: rest =>
      have hs := step_signal (s := s) (x := x) (rest := rest) (by rw [hi]; rfl) (fun _ => hi) (by simp [hb])
      exact .inr (.inr (.inl ⟨x, rest, rfl, fun _ => rfl, fun _ => hb, hs⟩))
    | .command w :: rest =>
      cases hd : decode w with
      | error e => exact .inr (.inr (.inr (.inl ⟨rfl, w, rest, e, rfl, hd, step_illegal hr hi hd⟩)))
      | ok i => exact .inr (.inr (.inr (.inr ⟨rfl, w, rest, i, rfl, hd, step_command hr hi hd⟩)))
  | false =>
    by_cases hb : s.busy = true ∧ Input.signal .reset ∈ s.inputs
    · exact .inl ⟨hb.1, hb.2, step_resetInFlight hb.1 hb.2⟩
    · have hb' : s.busy = true → Input.signal .reset ∉ s.inputs := fun a b => hb ⟨a, b⟩
      cases hi : firstSignal s.inputs with
      | none => exact .inr (.inl (step_wait hr hi hb'))
      | some p =>
        refine .inr (.inr (.inl ⟨p.1, p.2, rfl, by simp, fun hx => ?_, step_signal hi (by simp [hr]) hb'⟩))
        rcases Bool.eq_false_or_eq_true s.busy with h | h
        · exact absurd (hx ▸ firstSignal_mem hi) (hb' h)
        · exact h

end Sys2Proof.Machine
end

