-- ==== Sys2Proof/Laws/Meanings.lean ====
section
/-! SUPPORT. What each operation's meaning is on a bound handle, where the checks of rule R120 pass, and how a write of a
temperature ends. With the lemmas of Laws/Ops.lean these say everything the seven bus operations can do. -/

namespace Sys2Proof.Machine

variable {s : State} {sel : Sel}

theorem isTemperature_of_ne (h : sel ≠ .config) : sel.isTemperature = true := by
  cases sel <;> simp_all [Sel.isTemperature]

theorem isTemperature_of_writable (h : sel = .hyst ∨ sel = .limit) : sel.isTemperature = true := by
  rcases h with rfl | rfl <;> rfl

theorem ne_ambient_of_writable (h : sel = .hyst ∨ sel = .limit) : sel ≠ .ambient := by
  rcases h with rfl | rfl <;> decide

theorem registerWidth_of_ne (h : sel ≠ .config) : registerWidth sel = 2 := by
  cases sel <;> simp_all [registerWidth]

/-! ### Bound, legal -/

theorem exec_rdtemp_bound (h : sel.isTemperature = true) (hb : s.handle.bound = true) :
    exec (.rdtemp sel) s = .next (conclude (memRead sel 2 s) (fun d => toInt32 (decTemp d.1 d.2))) := by
  simp [exec, execRdtemp, busOperation, h, hb]

theorem exec_rdtempf_bound (h : sel.isTemperature = true) (hb : s.handle.bound = true) :
    exec (.rdtempf sel) s = .next (conclude (memRead sel 2 s) (fun d => v2f (decTemp d.1 d.2))) := by
  simp [exec, execRdtempf, busOperation, h, hb]

theorem exec_rdcfg_bound (hb : s.handle.bound = true) :
    exec .rdcfg s = .next (conclude (memRead .config 1 s) (fun d => cfgResult d.1)) := by
  simp [exec, execRdcfg, busOperation, hb]

theorem exec_wrcfg_bound {raw : Byte} (hb : s.handle.bound = true) :
    exec (.wrcfg raw) s = .next (conclude (memWrite .config [raw] s) (fun _ => 0#32)) := by
  simp [exec, execWrcfg, busOperation, hb]

theorem exec_wrtemp_ambient {value : Word} (hb : s.handle.bound = true) :
    exec (.wrtemp .ambient value) s = .next (respondOk 0#32 (loseScratch s)) :=
  (busOperation_bound (body := fun s => if Sel.ambient = Sel.ambient then respondOk 0#32 (loseScratch s)
    else writeTemperature .ambient (int32 value) s) rfl hb).trans (congrArg _ (if_pos rfl))

theorem exec_wrtempf_ambient {f : Word} (hb : s.handle.bound = true) :
    exec (.wrtempf .ambient f) s = .next (respondOk 0#32 (loseScratch s)) := by
  simp [exec, execWrtempf, busOperation, hb, Sel.isTemperature]

theorem exec_wrtemp_bound {value : Word} (h : sel = .hyst ∨ sel = .limit) (hb : s.handle.bound = true) :
    exec (.wrtemp sel value) s = .next (writeTemperature sel (int32 value) s) := by
  simp [exec, execWrtemp, busOperation, hb, isTemperature_of_writable h, ne_ambient_of_writable h]

/-- WRTEMPF of a convertible operand is WRTEMP of the converted value (R80), whatever the handle and the selector. -/
theorem exec_wrtempf_converted {f v : Word} (hf : f2v s.params.f2v f = some v) :
    exec (.wrtempf sel f) s = exec (.wrtemp sel v) s := by
  simp [exec, execWrtempf, execWrtemp, busOperation, hf]

theorem exec_wrtempf_invalid {f : Word} (h : sel = .hyst ∨ sel = .limit) (hb : s.handle.bound = true)
    (hf : f2v s.params.f2v f = none) : exec (.wrtempf sel f) s = .next (raise .illegalCommand (loseScratch s)) := by
  simp [exec, execWrtempf, busOperation, hb, hf, isTemperature_of_writable h, ne_ambient_of_writable h]

/-! ### Illegal selector, unbound handle -/

theorem exec_config_illegal (value f : Word) :
    exec (.rdtemp .config) s = .next (raise .illegalCommand s)
      ∧ exec (.rdtempf .config) s = .next (raise .illegalCommand s)
      ∧ exec (.wrtemp .config value) s = .next (raise .illegalCommand s)
      ∧ exec (.wrtempf .config f) s = .next (raise .illegalCommand s) :=
  ⟨rfl, rfl, rfl, rfl⟩

theorem exec_temperature_unbound (h : sel.isTemperature = true) (hb : s.handle.bound = false) (value f : Word) :
    exec (.rdtemp sel) s = .next (raise .unboundDevice (loseScratch s))
      ∧ exec (.rdtempf sel) s = .next (raise .unboundDevice (loseScratch s))
      ∧ exec (.wrtemp sel value) s = .next (raise .unboundDevice (loseScratch s))
      ∧ exec (.wrtempf sel f) s = .next (raise .unboundDevice (loseScratch s)) :=
  by simp [exec, execRdtemp, execRdtempf, execWrtemp, execWrtempf, busOperation, h, hb]

theorem exec_rdcfg_unbound (hb : s.handle.bound = false) : exec .rdcfg s = .next (raise .unboundDevice (loseScratch s)) := by
  simp [exec, execRdcfg, busOperation, hb]

theorem exec_wrcfg_unbound {raw : Byte} (hb : s.handle.bound = false) :
    exec (.wrcfg raw) s = .next (raise .unboundDevice (loseScratch s)) := by
  simp [exec, execWrcfg, busOperation, hb]

theorem onlyAnswersAndScratch_raise (e : Exception) (s : State) :
    onlyAnswersAndScratch s (raise e (loseScratch s)) (exceptionKind e) (exceptionCode e) := ⟨_, _, _, rfl⟩

theorem onlyAnswers_raise (e : Exception) (s : State) :
    onlyAnswers s (raise e s) (exceptionKind e) (exceptionCode e) := ⟨_, _, rfl⟩

/-! ### The write of a temperature (R124 after the guard) -/

theorem writeTemperature_done {value : Int} {x y : Byte}
    (h : environmentAnswer (storeRequest sel [encTempByte0 value, encTempByte1 value] s) s = .answered 0#32 x y) :
    writeTemperature sel value s
      = respondOk 0#32 (loseScratch (transact (storeRequest sel [encTempByte0 value, encTempByte1 value] s) s)) :=
  conclude_memWrite_done (.inr rfl) h

theorem writeTemperature_failed {value : Int} {st : Word} {x y : Byte} (hst : st ≠ 0#32)
    (h : environmentAnswer (storeRequest sel [encTempByte0 value, encTempByte1 value] s) s = .answered st x y) :
    writeTemperature sel value s
      = raise (.transportFailure st)
          (loseScratch (transact (storeRequest sel [encTempByte0 value, encTempByte1 value] s) s)) :=
  conclude_memWrite_failed (.inr rfl) h hst

/-! ### Everything an operation can do -/

/-- The forms in which an operation ends: answered without the bus, with the scratch buffer as it was or lost, INIT's
binding, a register read or a register write on a bound handle. -/
theorem exec_cases (i : Instr) (s : State) :
    (∃ e s', (e = .unboundDevice ∨ e = .illegalCommand) ∧ (s' = s ∨ s' = loseScratch s)
        ∧ exec i s = .next (raise e s'))
      ∨ (∃ r s', (s' = s ∨ s' = loseScratch s) ∧ exec i s = .next (respondOk r s'))
      ∨ (∃ low, i = .init low ∧ exec i s = .next (respondOk 0#32 (loseScratch
          { s with handle := { s.handle with addr := busAddress s.params.addrBase low, bound := true } })))
      ∨ (s.handle.bound = true ∧ ∃ sel f,
          ((sel ≠ .config ∧ (i = .rdtemp sel ∨ i = .rdtempf sel)) ∨ (sel = .config ∧ i = .rdcfg))
          ∧ exec i s = .next (conclude (memRead sel (registerWidth sel) s) f))
      ∨ (s.handle.bound = true ∧ ∃ sel v,
          (((sel = .hyst ∨ sel = .limit) ∧ ∃ value, v = [encTempByte0 value, encTempByte1 value]
              ∧ ((∃ w, i = .wrtemp sel w ∧ value = int32 w)
                ∨ ∃ f w, i = .wrtempf sel f ∧ f2v s.params.f2v f = some w ∧ value = int32 w))
            ∨ (sel = .config ∧ ∃ raw, v = [raw] ∧ i = .wrcfg raw))
          ∧ exec i s = .next (conclude (memWrite sel v s) (fun _ => 0#32))) := by
  rcases Bool.eq_false_or_eq_true s.handle.bound with hb | hb
  · have writes : ∀ sel : Sel, ∀ w : Word, sel = .hyst ∨ sel = .limit →
        exec (.wrtemp sel w) s = .next (conclude
          (memWrite sel [encTempByte0 (int32 w), encTempByte1 (int32 w)] s) (fun _ => 0#32)) :=
      fun sel w h => exec_wrtemp_bound h hb
    cases i with
    | init low => exact .inr (.inr (.inl ⟨low, rfl, rfl⟩))
    | dectemp b0 b1 => exact .inr (.inl ⟨_, _, .inl rfl, rfl⟩)
    | enctemp value => exact .inr (.inl ⟨_, _, .inl rfl, rfl⟩)
    | deccfg raw => exact .inr (.inl ⟨_, _, .inl rfl, rfl⟩)
    | enccfg packed => exact .inr (.inl ⟨_, _, .inl rfl, rfl⟩)
    | rdtemp sel =>
      by_cases h : sel = .config
      · subst h; exact .inl ⟨_, _, .inr rfl, .inl rfl, rfl⟩
      · refine .inr (.inr (.inr (.inl ⟨hb, sel, (fun d => toInt32 (decTemp d.1 d.2)), .inl ⟨h, .inl rfl⟩, ?_⟩)))
        rw [exec_rdtemp_bound (isTemperature_of_ne h) hb, registerWidth_of_ne h]
    | rdtempf sel =>
      by_cases h : sel = .config
      · subst h; exact .inl ⟨_, _, .inr rfl, .inl rfl, rfl⟩
      · refine .inr (.inr (.inr (.inl ⟨hb, sel, (fun d => v2f (decTemp d.1 d.2)), .inl ⟨h, .inr rfl⟩, ?_⟩)))
        rw [exec_rdtempf_bound (isTemperature_of_ne h) hb, registerWidth_of_ne h]
    | rdcfg => exact .inr (.inr (.inr (.inl ⟨hb, .config, _, .inr ⟨rfl, rfl⟩, exec_rdcfg_bound hb⟩)))
    | wrcfg raw =>
      exact .inr (.inr (.inr (.inr ⟨hb, .config, _, .inr ⟨rfl, raw, rfl, rfl⟩, exec_wrcfg_bound hb⟩)))
    | wrtemp sel w =>
      cases sel with
      | config => exact .inl ⟨_, _, .inr rfl, .inl rfl, rfl⟩
      | ambient => exact .inr (.inl ⟨_, _, .inr rfl, exec_wrtemp_ambient hb⟩)
      | hyst =>
        exact .inr (.inr (.inr (.inr ⟨hb, .hyst, _, .inl ⟨.inl rfl, _, rfl, .inl ⟨w, rfl, rfl⟩⟩, writes _ w (.inl rfl)⟩)))
      | limit =>
        exact .inr (.inr (.inr (.inr ⟨hb, .limit, _, .inl ⟨.inr rfl, _, rfl, .inl ⟨w, rfl, rfl⟩⟩, writes _ w (.inr rfl)⟩)))
    | wrtempf sel f =>
      by_cases hs : sel = .hyst ∨ sel = .limit
      · cases hf : f2v s.params.f2v f with
        | none => exact .inl ⟨_, _, .inr rfl, .inr rfl, exec_wrtempf_invalid hs hb hf⟩
        | some w =>
          refine .inr (.inr (.inr (.inr ⟨hb, sel, _, .inl ⟨hs, _, rfl, .inr ⟨f, w, rfl, hf, rfl⟩⟩, ?_⟩)))
          rw [exec_wrtempf_converted hf, writes sel w hs]
      · cases sel with
        | config => exact .inl ⟨_, _, .inr rfl, .inl rfl, rfl⟩
        | ambient => exact .inr (.inl ⟨_, _, .inr rfl, exec_wrtempf_ambient hb⟩)
        | hyst => exact absurd (.inl rfl) hs
        | limit => exact absurd (.inr rfl) hs
  · cases i with
    | init low => exact .inr (.inr (.inl ⟨low, rfl, rfl⟩))
    | dectemp b0 b1 => exact .inr (.inl ⟨_, _, .inl rfl, rfl⟩)
    | enctemp value => exact .inr (.inl ⟨_, _, .inl rfl, rfl⟩)
    | deccfg raw => exact .inr (.inl ⟨_, _, .inl rfl, rfl⟩)
    | enccfg packed => exact .inr (.inl ⟨_, _, .inl rfl, rfl⟩)
    | rdcfg => exact .inl ⟨_, _, .inl rfl, .inr rfl, exec_rdcfg_unbound hb⟩
    | wrcfg raw => exact .inl ⟨_, _, .inl rfl, .inr rfl, exec_wrcfg_unbound hb⟩
    | rdtemp sel =>
      by_cases h : sel = .config
      · subst h; exact .inl ⟨_, _, .inr rfl, .inl rfl, rfl⟩
      · exact .inl ⟨_, _, .inl rfl, .inr rfl, (exec_temperature_unbound (isTemperature_of_ne h) hb 0 0).1⟩
    | rdtempf sel =>
      by_cases h : sel = .config
      · subst h; exact .inl ⟨_, _, .inr rfl, .inl rfl, rfl⟩
      · exact .inl ⟨_, _, .inl rfl, .inr rfl, (exec_temperature_unbound (isTemperature_of_ne h) hb 0 0).2.1⟩
    | wrtemp sel w =>
      by_cases h : sel = .config
      · subst h; exact .inl ⟨_, _, .inr rfl, .inl rfl, rfl⟩
      · exact .inl ⟨_, _, .inl rfl, .inr rfl, (exec_temperature_unbound (isTemperature_of_ne h) hb w 0).2.2.1⟩
    | wrtempf sel f =>
      by_cases h : sel = .config
      · subst h; exact .inl ⟨_, _, .inr rfl, .inl rfl, rfl⟩
      · exact .inl ⟨_, _, .inl rfl, .inr rfl, (exec_temperature_unbound (isTemperature_of_ne h) hb 0 f).2.2.2⟩

/-! ### The response an operation gives -/

/-- `t` after an operation from `s`: answered and as ready as `s` but for the response, or waiting for the transport. -/
def AnsweredOrWaiting (s t : State) : Prop :=
  (∃ r, givesResponse s t r ∧ t.busy = s.busy)
    ∨ (t.busy = true ∧ t.responses = s.responses ∧ t.pending = s.pending)

theorem conclude_memRead_answers (sel : Sel) (n : Nat) (f : Byte × Byte → Word) (s : State) :
    AnsweredOrWaiting s (conclude (memRead sel n s) f) := by
  rcases conclude_memRead_cases sel n f s with ⟨_, h⟩ | ⟨_, _, _, _, _, h⟩ | ⟨_, _, _, _, h⟩ | ⟨_, _, _, _, _, _, _, _, h⟩
    | ⟨_, _, _, _, _, _, h⟩ <;> rw [h]
  · exact .inr ⟨rfl, rfl, rfl⟩
  · exact .inl ⟨_, ⟨rfl, rfl⟩, rfl⟩
  · exact .inr ⟨rfl, rfl, rfl⟩
  · exact .inl ⟨_, ⟨rfl, rfl⟩, rfl⟩
  · exact .inl ⟨_, ⟨rfl, rfl⟩, rfl⟩

theorem conclude_memWrite_answers (sel : Sel) (v : List Byte) (g : Unit → Word) (s : State)
    (hv : v.length = 1 ∨ v.length = 2) : AnsweredOrWaiting s (conclude (memWrite sel v s) g) := by
  rcases conclude_memWrite_cases sel v g s hv with ⟨_, h⟩ | ⟨_, _, _, _, _, h⟩ | ⟨_, _, _, h⟩ <;> rw [h]
  · exact .inr ⟨rfl, rfl, rfl⟩
  · exact .inl ⟨_, ⟨rfl, rfl⟩, rfl⟩
  · exact .inl ⟨_, ⟨rfl, rfl⟩, rfl⟩

theorem exec_answers {i : Instr} {s t : State} (h : exec i s = .next t) : AnsweredOrWaiting s t := by
  rcases exec_cases i s with ⟨e, _, _, rfl | rfl, h1⟩ | ⟨r, _, rfl | rfl, h1⟩ | ⟨low, _, h1⟩ | ⟨_, sel, f, _, h1⟩ | ⟨_, sel, v, hi, h1⟩ <;>
    rw [h1] at h <;> cases h
  · exact .inl ⟨_, ⟨rfl, rfl⟩, rfl⟩
  · exact .inl ⟨_, ⟨rfl, rfl⟩, rfl⟩
  · exact .inl ⟨_, ⟨rfl, rfl⟩, rfl⟩
  · exact .inl ⟨_, ⟨rfl, rfl⟩, rfl⟩
  · exact .inl ⟨_, ⟨rfl, rfl⟩, rfl⟩
  · exact conclude_memRead_answers ..
  · refine conclude_memWrite_answers _ _ _ _ ?_
    rcases hi with ⟨_, _, rfl, _⟩ | ⟨_, _, rfl, _⟩
    · exact .inr rfl
    · exact .inl rfl

end Sys2Proof.Machine
end

