-- ==== Sys2Proof/Laws/PerInstr.lean ====
section
/-! SUPPORT. Statements about every operation as syntax, one lemma per constructor: the encoded word carries the fixed
bits of the operation's row of spec/opcode_table.json (30_encoding.md rules R60 to R64). -/

namespace Sys2Proof.Laws.EncodesToItsRow

/-- The encoded word fits the row. -/
def Statement (i : Instr) : Prop := i.wellFormed = true → fitsRow i (encode i) = true

/-- A word with zeros under the mask's free bits: the row of an operation whose operand is its low bits. -/
theorem init (low : BitVec 3) : Statement (.init low) := fun _ => by revert low; decide

theorem rdtemp (sel : Sel) : Statement (.rdtemp sel) := fun _ => by cases sel <;> decide

theorem rdtempf (sel : Sel) : Statement (.rdtempf sel) := fun _ => by cases sel <;> decide

/-- The fixed bits of a command word are its opcode bits where the mask covers no operand bit. -/
theorem masked_commandWord (op : BitVec 4) (sel : BitVec 2) (arg : Word) (m : BitVec 8) :
    commandWord op sel arg &&& (m ++ 0#32) = (((0#2 ++ op ++ sel : BitVec 8) &&& m) ++ 0#32 : BitVec 40) := by
  apply BitVec.eq_of_getLsbD_eq
  intro k hk
  simp only [commandWord, BitVec.getLsbD_and, BitVec.getLsbD_append]
  split <;> simp

theorem wrtemp (sel : Sel) (value : Word) : Statement (.wrtemp sel value) := fun _ => by
  have h := masked_commandWord 3#4 sel.code value 0xFC#8
  simp only [fitsRow, encode, rowMask, rowMatch, beq_iff_eq]
  rw [show (0xFC00000000#40) = (0xFC#8 ++ 0#32 : BitVec 40) by decide, h]
  cases sel <;> decide

theorem wrtempf (sel : Sel) (f : Word) : Statement (.wrtempf sel f) := fun _ => by
  have h := masked_commandWord 4#4 sel.code f 0xFC#8
  simp only [fitsRow, encode, rowMask, rowMatch, beq_iff_eq]
  rw [show (0xFC00000000#40) = (0xFC#8 ++ 0#32 : BitVec 40) by decide, h]
  cases sel <;> decide

theorem rdcfg : Statement .rdcfg := fun _ => by decide

/-- The same for an operand of the low `k` bits beside fixed ones. -/
theorem masked_byte (op : BitVec 4) (sel : BitVec 2) (b : Byte) :
    commandWord op sel (0#24 ++ b) &&& 0xFFFFFFFF00#40 = (0#2 ++ op ++ sel ++ 0#32 : BitVec 40) := by
  rw [show (0xFFFFFFFF00#40) = (0xFFFFFFFF#32 ++ 0#8 : BitVec 40) by decide]
  apply BitVec.eq_of_getLsbD_eq
  intro k hk
  simp only [commandWord, BitVec.getLsbD_and, BitVec.getLsbD_append]
  by_cases h8 : k < 8
  · simp [h8, show k < 32 by omega]
  · by_cases h32 : k < 32
    · simp [h8, h32]
    · have : (0xFFFFFFFF#32).getLsbD (k - 8) = true := by
        obtain ⟨j, rfl⟩ : ∃ j, k = 8 + j := ⟨k - 8, by omega⟩
        have : j < 32 := by omega
        interval_cases j <;> rfl
      simp [h8, h32, this]

theorem wrcfg (raw : Byte) : Statement (.wrcfg raw) := fun _ => by
  simp only [fitsRow, encode, rowMask, rowMatch, beq_iff_eq, masked_byte]; decide

theorem dectemp (b0 b1 : Byte) : Statement (.dectemp b0 b1) := fun _ => by
  simp only [fitsRow, encode, rowMask, rowMatch, beq_iff_eq]
  rw [show (0xFFFFFF0000#40) = (0xFFFFFF#24 ++ 0#16 : BitVec 40) by decide]
  apply BitVec.eq_of_getLsbD_eq
  intro k hk
  have hz : ∀ j, (0x2000000000#40).getLsbD j = decide (j = 37) := by
    intro j
    by_cases hj : j < 40
    · interval_cases j <;> rfl
    · rw [BitVec.getLsbD_of_ge _ _ (by omega)]; simp; omega
  simp only [commandWord, BitVec.getLsbD_and, BitVec.getLsbD_append, hz]
  interval_cases k <;> simp

theorem enctemp (value : Word) : Statement (.enctemp value) := fun _ => by
  have h := masked_commandWord 9#4 0#2 value 0xFF#8
  simp only [fitsRow, encode, rowMask, rowMatch, beq_iff_eq]
  rw [show (0xFF00000000#40) = (0xFF#8 ++ 0#32 : BitVec 40) by decide, h]
  decide

theorem deccfg (raw : Byte) : Statement (.deccfg raw) := fun _ => by
  simp only [fitsRow, encode, rowMask, rowMatch, beq_iff_eq, masked_byte]; decide

theorem enccfg (packed : Byte) : Statement (.enccfg packed) := fun _ => by
  simp only [fitsRow, encode, rowMask, rowMatch, beq_iff_eq, masked_byte]; decide

end Sys2Proof.Laws.EncodesToItsRow
end

