-- ==== Sys2Proof/Machine/Assembly.lean ====
section
/-! DEFINITION. The assembler form of a command, "a mnemonic and its operands" (30_encoding.md rule R79). -/

namespace Sys2Proof.Machine

/-- One line of assembler text with its operands as the numbers written there. A decimal real is a sign and a
fraction. -/
inductive AsmLine where
  | init (low : Nat)
  | rdtemp (reg : Sel)
  | rdtempf (reg : Sel)
  | wrtemp (reg : Sel) (value : Int)
  | wrtempf (reg : Sel) (negative : Bool) (num den : Nat)
  | rdcfg
  | wrcfg (raw : Nat)
  | dectemp (b0 b1 : Nat)
  | enctemp (value : Int)
  | deccfg (raw : Nat)
  | enccfg (packed : Nat)
  deriving DecidableEq, Repr

/-- A number is the value of an `int32`. -/
def inInt32 (v : Int) : Bool := decide (-2147483648 ≤ v ∧ v ≤ 2147483647)

/-- The operation a line stands for; `none` where an operand is outside the range R79 gives. -/
def assembleInstr : AsmLine → Option Instr
  | .init low => if low ≤ 7 then some (.init (BitVec.ofNat 3 low)) else none
  | .rdtemp reg => if reg.isTemperature then some (.rdtemp reg) else none
  | .rdtempf reg => if reg.isTemperature then some (.rdtempf reg) else none
  | .wrtemp reg value =>
    if reg.isTemperature && inInt32 value then some (.wrtemp reg (BitVec.ofInt 32 value)) else none
  | .wrtempf reg negative num den =>
    if reg.isTemperature && decide (0 < den) then some (.wrtempf reg (floatOfRatio negative num den)) else none
  | .rdcfg => some .rdcfg
  | .wrcfg raw => if raw ≤ 0xFF then some (.wrcfg (BitVec.ofNat 8 raw)) else none
  | .dectemp b0 b1 =>
    if b0 ≤ 0xFF ∧ b1 ≤ 0xFF then some (.dectemp (BitVec.ofNat 8 b0) (BitVec.ofNat 8 b1)) else none
  | .enctemp value => if inInt32 value then some (.enctemp (BitVec.ofInt 32 value)) else none
  | .deccfg raw => if raw ≤ 0xFF then some (.deccfg (BitVec.ofNat 8 raw)) else none
  | .enccfg packed => if packed ≤ 0xFF then some (.enccfg (BitVec.ofNat 8 packed)) else none

/-- The command word of a line. -/
def assemble (l : AsmLine) : Option Command := (assembleInstr l).map encode

end Sys2Proof.Machine
end

