-- ==== Sys2Proof/Tests/Slice0.lean ====
section
/-! SUPPORT. Tests on fixed values, each expected result taken from spec/95_test_vectors.md or a rule's own example,
and for every statement with hypotheses a witness that meets them. -/

namespace Sys2Proof.Tests

open Sys2Proof Sys2Proof.Machine

/-! ### Ill-formed terms (30_encoding.md rule R63: Configuration is no RegisterSelector value) -/

theorem test_illformed_rdtemp : (Instr.rdtemp .config).wellFormed = false := by decide
theorem test_illformed_rdtempf : (Instr.rdtempf .config).wellFormed = false := by decide
theorem test_illformed_wrtemp : (Instr.wrtemp .config 47500#32).wellFormed = false := by decide
theorem test_illformed_wrtempf : (Instr.wrtempf .config 0x40980000#32).wellFormed = false := by decide

/-! ### Words written out from rules R60 to R64: rsv, op, sel, arg -/

theorem test_word_init : decode (0b00#2 ++ 0b0000#4 ++ 0b00#2 ++ 0x00000003#32) = .ok (.init 3#3) := by decide
theorem test_word_rdtemp : decode (0b00#2 ++ 0b0001#4 ++ 0b11#2 ++ 0x00000000#32) = .ok (.rdtemp .limit) := by decide
theorem test_word_rdtempf : decode (0b00#2 ++ 0b0010#4 ++ 0b10#2 ++ 0x00000000#32) = .ok (.rdtempf .hyst) := by decide
theorem test_word_wrtemp :
    decode (0b00#2 ++ 0b0011#4 ++ 0b11#2 ++ 0xFFFF3CB0#32) = .ok (.wrtemp .limit 0xFFFF3CB0#32) := by decide
theorem test_word_wrtempf :
    decode (0b00#2 ++ 0b0100#4 ++ 0b00#2 ++ 0x7FC00000#32) = .ok (.wrtempf .ambient 0x7FC00000#32) := by decide
theorem test_word_rdcfg : decode (0b00#2 ++ 0b0101#4 ++ 0b01#2 ++ 0x00000000#32) = .ok .rdcfg := by decide
theorem test_word_wrcfg : decode (0b00#2 ++ 0b0110#4 ++ 0b01#2 ++ 0x000000FF#32) = .ok (.wrcfg 0xFF#8) := by decide
theorem test_word_dectemp :
    decode (0b00#2 ++ 0b1000#4 ++ 0b00#2 ++ 0x00008A40#32) = .ok (.dectemp 0x8A#8 0x40#8) := by decide
theorem test_word_enctemp :
    decode (0b00#2 ++ 0b1001#4 ++ 0b00#2 ++ 0xFFFFFFFF#32) = .ok (.enctemp 0xFFFFFFFF#32) := by decide
theorem test_word_deccfg : decode (0b00#2 ++ 0b1010#4 ++ 0b00#2 ++ 0x00000065#32) = .ok (.deccfg 0x65#8) := by decide
theorem test_word_enccfg : decode (0b00#2 ++ 0b1011#4 ++ 0b00#2 ++ 0x00000036#32) = .ok (.enccfg 0x36#8) := by decide

/-- Vectors TI1, TI8, TI10, TI12, TI17, TI20, TI23, TI25, TI33: each clause of rule R68. -/
theorem test_illegal_words :
    [0x4000000000#40, 0x3CFFFFFFFF#40, 0x0000000008#40, 0x0500000000#40, 0x0B80000000#40, 0x1700000000#40,
      0x1900000100#40, 0x2000010000#40, 0x2F000000A6#40].map decode
      = [.error .reservedField, .error .reservedOperation, .error .strayOperandBit, .error .selectorNotAllowed,
        .error .strayOperandBit, .error .selectorNotAllowed, .error .strayOperandBit, .error .strayOperandBit,
        .error .selectorNotAllowed] := by decide

/-- "Of the 256 opcode bytes, 19 are legal with arg = 0." -/
theorem test_nineteen_opcode_bytes :
    ((List.range 256).filter (fun b => (decode (BitVec.ofNat 40 (b * 2 ^ 32))).toOption.isSome))
      = [0x00, 0x04, 0x06, 0x07, 0x08, 0x0A, 0x0B, 0x0C, 0x0E, 0x0F, 0x10, 0x12, 0x13, 0x15, 0x19, 0x20, 0x24, 0x28,
        0x2C] := by decide +kernel

/-- One operation for each row of the opcode table. -/
def rows : List Instr :=
  [.init 0#3, .rdtemp .ambient, .rdtempf .ambient, .wrtemp .ambient 0#32, .wrtempf .ambient 0#32, .rdcfg, .wrcfg 0#8,
    .dectemp 0#8 0#8, .enctemp 0#32, .deccfg 0#8, .enccfg 0#8]

/-- Rule R81: no two rows overlap. -/
theorem test_rows_do_not_overlap :
    rows.Pairwise (fun i j => (rowMatch i ^^^ rowMatch j) &&& rowMask i &&& rowMask j ≠ 0#40) := by decide

theorem test_table_word : decodeTableWord 40 0x0E0000B98C = some (.wrtemp .hyst 47500#32) := by decide

/-! ### States -/

/-- A handle bound at 0x48, the convention of 95_test_vectors.md. -/
def bound : Handle := { bound := true, addr := 0x48#7, scratch := { b0 := 0#8, b1 := 0#8, b2 := 0#8 } }

/-- Bound, with the environment's answers scripted and commands offered. -/
def scripted (answers : List Answer) (commands : List Command) : State :=
  { State.reset with handle := bound, inputs := commands.map .command, env := .oracle answers }

/-- The reference device of program P1. -/
def sensor : Device where
  addr := 0x48#7
  ptr := .ambient
  ambient := { b0 := 0x19#8, b1 := 0x80#8 }
  config := 0x00#8
  hyst := { b0 := 0x4B#8, b1 := 0x00#8 }
  limit := { b0 := 0x50#8, b1 := 0x00#8 }

/-- Bound, with the reference device behind the transport. -/
def simulated : State := { State.reset with handle := bound, env := .device sensor }

/-- Status 0 with two bytes. -/
def good (b0 b1 : Byte) : Answer := .answered 0#32 b0 b1

/-- What a step answers and transmits. -/
def replies (s : State) : Option (List Response × List Transaction) :=
  match step s with
  | .next t => some (t.responses, t.trace)
  | _ => none

/-- The same without the results. -/
def kinds (s : State) : Option (List (Kind × Word) × List Transaction) :=
  match step s with
  | .next t => some (t.responses.map (fun r => (r.kind, r.code)), t.trace)
  | _ => none

/-- What a step leaves of the environment. -/
def environment (s : State) : Option Env :=
  match step s with
  | .next t => some t.env
  | _ => none

/-! ### Bus operations (95_test_vectors.md section 2.6) -/

/-- 42_bus_operations.md rule R121's example; the content of the scratch buffer is any after it (R13). -/
theorem test_init :
    ∃ c n, exec (.init 3#3) State.reset
      = .next { State.reset with
          handle := { bound := true, addr := 0x4B#7, scratch := c }
          responses := [okResponse 0#32]
          pending := some (okResponse 0#32)
          fresh := n } := ⟨_, _, rfl⟩

/-- TB12. -/
theorem test_tb12 :
    replies (scripted [good 0#8 0#8, good 0x19#8 0x80#8] [0x0400000000#40])
      = some ([okResponse 0x0003E418#32],
        [.write 0x48#7 [0x00#8] (some 0#32), .read 0x48#7 2 (some (0#32, [0x19#8, 0x80#8]))]) := by decide

/-- TB15. -/
theorem test_tb15 :
    kinds (scripted [.answered 0xFFFFFFFB#32 0#8 0#8] [0x0400000000#40])
      = some ([(.transport, 0xFFFFFFFB#32)], [.write 0x48#7 [0x00#8] (some 0xFFFFFFFB#32)]) := by decide

/-- TB18. -/
theorem test_tb18 :
    replies (scripted [good 0#8 0#8, good 0x80#8 0x10#8] [0x0A00000000#40])
      = some ([okResponse 0xBD800000#32],
        [.write 0x48#7 [0x02#8] (some 0#32), .read 0x48#7 2 (some (0#32, [0x80#8, 0x10#8]))]) := by decide +kernel

/-- TB22. -/
theorem test_tb22 :
    replies (scripted [good 0#8 0#8] [0x0FFFFF3CB0#40])
      = some ([okResponse 0#32], [.write 0x48#7 [0x03#8, 0xFB#8, 0x00#8] (some 0#32)]) := by decide

/-- TB10: the Ambient guard. -/
theorem test_tb10 : replies (scripted [] [0x0CFFFFFFFF#40]) = some ([okResponse 0#32], []) := by decide

/-- TB25. -/
theorem test_tb25 :
    replies (scripted [good 0#8 0#8] [0x1340980000#40])
      = some ([okResponse 0#32], [.write 0x48#7 [0x03#8, 0x04#8, 0x80#8] (some 0#32)]) := by decide +kernel

/-- TB28: the product is out of range. -/
theorem test_tb28 : kinds (scripted [] [0x134851B740#40]) = some ([(.illegal, 0#32)], []) := by decide +kernel

/-- TB30. -/
theorem test_tb30 :
    replies (scripted [good 0#8 0#8, good 0x65#8 0#8] [0x1500000000#40])
      = some ([okResponse 0x001CA665#32],
        [.write 0x48#7 [0x01#8] (some 0#32), .read 0x48#7 1 (some (0#32, [0x65#8]))]) := by decide

/-- TB33: the byte of a failed read is not decoded. -/
theorem test_tb33 :
    kinds (scripted [good 0#8 0#8, .answered 0xFFFFFFFF#32 0#8 0#8] [0x1500000000#40])
      = some ([(.transport, 0xFFFFFFFF#32)],
        [.write 0x48#7 [0x01#8] (some 0#32), .read 0x48#7 1 (some (0xFFFFFFFF#32, [0#8]))]) := by decide

/-- TB34. -/
theorem test_tb34 :
    replies (scripted [good 0#8 0#8] [0x1900000060#40])
      = some ([okResponse 0#32], [.write 0x48#7 [0x01#8, 0x60#8] (some 0#32)]) := by decide

/-- TB7: the unbound check comes before the Ambient guard. -/
theorem test_tb7 :
    kinds { State.reset with inputs := [.command 0x0C00000000#40] } = some ([(.unbound, 0#32)], []) := by decide

/-- TI12. -/
theorem test_ti12 : kinds (scripted [] [0x0500000000#40]) = some ([(.illegal, 0#32)], []) := by decide

/-- A word placed for fetching is the word the next step runs (TD1 from reset). -/
theorem test_withFetchWord :
    replies (State.reset.withFetchWord 40 0x2000001980) = some ([okResponse 0x0003E418#32], []) := by decide

/-! ### The reference device (20_memory.md rules R45 to R51) -/

/-- Program P3, step 2: the register and the pointer move. -/
theorem test_device_store :
    environment { simulated with inputs := [.command 0x0E0000B98C#40] }
      = some (.device { sensor with ptr := .hyst, hyst := { b0 := 0x04#8, b1 := 0x80#8 } }) := by decide

/-- Rule R51: a lower resolution clears the fraction bits outside its mask. -/
theorem test_device_mask :
    deviceAfter { sensor with config := 0x60#8, ambient := { b0 := 0x19#8, b1 := 0xF0#8 } } (.write 0x48#7 [1#8, 0x20#8])
      = { sensor with config := 0x20#8, ptr := .config, ambient := { b0 := 0x19#8, b1 := 0xC0#8 } } := by decide

/-- Rules R45, R49, R50: what the device takes. -/
theorem test_device_takes :
    [(Request.write 0x49#7 [0#8]), .write 0x48#7 [4#8], .write 0x48#7 [2#8, 0#8], .write 0x48#7 [1#8, 0#8, 0#8],
      .read 0x49#7 2, .write 0x48#7 [0#8, 1#8, 2#8], .read 0x48#7 2].map (deviceTakes sensor)
      = [false, false, false, false, false, true, true] := by decide

/-! ### The codec (95_test_vectors.md sections 2.1 to 2.5) -/

/-- TD2, TD4, TD5, TD15, TD19, TD22. -/
theorem test_dectemp :
    [decTemp 0x7F#8 0xF0#8, decTemp 0xFF#8 0xF0#8, decTemp 0x19#8 0xFF#8, decTemp 0x80#8 0x10#8, decTemp 0xC9#8 0xC0#8,
      decTemp 0x80#8 0x0F#8] = [1279375, -1279375, 259375, -625, -737500, 0] := by decide

/-- TE3, TE6, TE15, TE21, TE23, TE28, TE36. -/
theorem test_enctemp :
    [encTemp 5000, encTemp 47500, encTemp 1280000, encTemp 12345678, encTemp (-1), encTemp (-15000),
      encTemp (-2147483648)]
      = [(0x00#8, 0x80#8), (0x04#8, 0x80#8), (0x80#8, 0x00#8), (0xD2#8, 0x80#8), (0x00#8, 0x00#8), (0xFF#8, 0x00#8),
        (0x24#8, 0x00#8)] := by decide

/-- TC3, TC15, TC16. -/
theorem test_deccfg :
    [cfgResult 0x65#8, cfgResult 0x9A#8, cfgResult 0x7E#8] = [0x001CA665#32, 0x0069599A#32, 0x006C7E7E#32] := by decide

/-- TC3, TC14, TC15 read from right to left. -/
theorem test_enccfg :
    [0xA6#8, 0x87#8, 0x59#8].map (fun p => encCfg (unpackCfg p)) = [0x65#8, 0xE1#8, 0x9A#8] := by decide

/-- TF1, TF3, TF7, TF8. -/
theorem test_v2f :
    [v2f 255000, v2f 0, v2f (-1279375), v2f 625] = [0x41CC0000#32, 0x00000000#32, 0xC2FFE000#32, 0x3D800000#32] := by
  decide +kernel

/-- TF22, TF23, TF26, TF29, TF30, TF35, TF38: the default. -/
theorem test_f2v_default :
    [0x3F333333#32, 0xBF333333#32, 0x4851B700#32, 0x00000001#32, 0x4851B716#32, 0x4851B717#32, 0x7F7FFFFF#32].map
        (f2v .roundedProduct)
      = [some 7000#32, some (BitVec.ofInt 32 (-7000)), some 2147480064#32, some 0#32, some 2147483392#32, none, none] := by
  decide +kernel

/-- TF22, TF23, TF26, TF30: the exact product. -/
theorem test_f2v_exact :
    [0x3F333333#32, 0xBF333333#32, 0x4851B700#32, 0x4851B716#32].map (f2v .exactProduct)
      = [some 6999#32, some (BitVec.ofInt 32 (-6999)), some 2147480000#32, some 2147483437#32] := by decide +kernel

/-! ### The assembler form (30_encoding.md rule R79; words of 95_test_vectors.md) -/

theorem test_assemble :
    [assemble (.wrtemp .limit (-50000)), assemble (.wrtempf .limit false 19 4), assemble (.init 8),
      assemble (.rdtemp .config)] = [some 0x0FFFFF3CB0#40, some 0x1340980000#40, none, none] := by decide +kernel

/-! ### Witnesses: every statement's hypotheses are met -/

theorem test_hyp_EncodeThenDecode : (Instr.wrtemp .hyst 47500#32).wellFormed = true := by decide

theorem test_hyp_DecodeThenEncode : decode 0x0000000007#40 = .ok (.init 7#3) := by decide

/-- TI12 and TI1 are illegal by fields, and the block is ready. -/
theorem test_hyp_IllegalCommandHasNoEffect_word :
    ready (scripted [] [0x0500000000#40]) = true ∧ (scripted [] [0x0500000000#40]).inputs = [.command 0x0500000000#40]
      ∧ ¬ legalWord 0x0500000000 ∧ ¬ legalWord 0x4000000000 ∧ ¬ legalWord 0x0000000008 ∧ ¬ legalWord 0x3000000000 := by
  unfold legalWord selectorFits listedBits; decide

/-- TI24, TI27: legal by fields. -/
theorem test_legal_words : legalWord 0x19000000FF ∧ legalWord 0x200000FFFF ∧ legalWord 0x0B00000000 := by
  unfold legalWord selectorFits listedBits; decide

/-- TF31: a NaN does not convert. -/
theorem test_hyp_IllegalCommandHasNoEffect_operand :
    (scripted [] []).handle.bound = true ∧ f2v (scripted [] []).params.f2v 0x7FC00000#32 = none := by decide +kernel

theorem test_hyp_StepRunsTheDecodedCommand :
    ready (scripted [] [0x1500000000#40]) = true ∧ (scripted [] [0x1500000000#40]).inputs = [.command 0x1500000000#40]
      ∧ decode 0x1500000000#40 = .ok .rdcfg := by decide

/-- A block that waits for the transport with a command offered. -/
def waiting : State :=
  { scripted [] [0x1500000000#40] with busy := true, trace := [.write 0x48#7 [0x01#8] none] }

/-- A response stands at the response port, and two commands are offered before the caller takes it. -/
def untaken : State :=
  { scripted [] [] with
    inputs := [.command 0x1500000000#40, .command 0x2000001980#40, .signal .take]
    responses := [okResponse 0#32]
    pending := some (okResponse 0#32) }

theorem test_hyp_BusyBlockHoldsCommands :
    (ready waiting = false ∧ ∀ x ∈ waiting.inputs, ∃ w, x = .command w)
      ∧ ready { untaken with inputs := [] } = false ∧ ready State.reset = true ∧ State.reset.inputs = [] :=
  ⟨⟨by decide, fun x hx => ⟨0x1500000000#40, by simpa [waiting, scripted] using hx⟩⟩, by decide, by decide, rfl⟩

theorem test_hyp_ResetRequestUnbinds :
    ({ scripted [] [] with inputs := [.signal .reset] } : State).busy = false
      ∧ ({ waiting with inputs := [.signal .reset] } : State).busy = true
      ∧ Input.signal .reset ∈ ({ waiting with inputs := [.command 0x1500000000#40, .signal .reset] } : State).inputs := by
  decide

theorem test_hyp_OnlyResetUnbinds :
    ∃ t, step { scripted [] [] with inputs := [.signal .reset] } = .next t ∧ t.handle.bound = false
      ∧ ({ scripted [] [] with inputs := [.signal .reset] } : State).handle.bound = true := ⟨_, rfl, rfl, rfl⟩

theorem test_hyp_MeasurementArrivesMasked :
    (simulated.busy = true → Input.signal .reset ∉ ([] : List Input)) ∧ simulated.env = .device sensor := by decide

/-- Rule R176: the command offered second waits until the first one's response has been taken. -/
theorem test_second_command_waits :
    step { untaken with inputs := [.command 0x1500000000#40] } = .next { untaken with inputs := [.command 0x1500000000#40] } :=
  rfl

/-- Rule R176: the response is taken, and the commands still wait in order. -/
theorem test_take_response :
    step untaken = .next { untaken with
      inputs := [.command 0x1500000000#40, .command 0x2000001980#40], pending := none } := rfl

theorem test_hyp_TakenResponseMakesReady :
    untaken.busy = false ∧ untaken.pending = some (okResponse 0#32)
      ∧ firstSignal untaken.inputs = some (.take, [.command 0x1500000000#40, .command 0x2000001980#40]) := by decide

/-- One witness for each clause: an operation, an accepted command, a response taken. -/
theorem test_hyp_ReadyIsLowUntilTheResponseIsTaken :
    (∃ t, exec (.dectemp 0x19#8 0x80#8) State.reset = .next t)
      ∧ (∃ t, (scripted [] [0x2000001980#40]).inputs = [.command 0x2000001980#40]
        ∧ ready (scripted [] [0x2000001980#40]) = true ∧ step (scripted [] [0x2000001980#40]) = .next t)
      ∧ ∃ t, ready untaken = false ∧ step untaken = .next t ∧ ready t = true :=
  ⟨⟨_, rfl⟩, ⟨_, rfl, by decide, rfl⟩, ⟨_, by decide, rfl, by decide⟩⟩

theorem test_hyp_WaitingCommandsAreKept :
    (∃ t, ready untaken = false ∧ step untaken = .next t)
      ∧ ∃ t, ready (scripted [] [0x2000001980#40]) = true ∧ step (scripted [] [0x2000001980#40]) = .next t :=
  ⟨⟨_, by decide, rfl⟩, ⟨_, by decide, rfl⟩⟩

theorem test_hyp_UnboundHandleAnswersUnbound : State.reset.handle.bound = false ∧ Sel.hyst ≠ .config := by decide

/-- RDTEMP and RDTEMPF answered. -/
theorem test_hyp_RdtempAnswersTheTemperature :
    let s := scripted [good 0#8 0#8, good 0x19#8 0x80#8] []
    s.handle.bound = true ∧ Sel.limit ≠ .config
      ∧ environmentAnswer (selectRequest .limit s) s = .answered 0#32 0#8 0#8
      ∧ environmentAnswer (dataRequest 2 s) (afterSelect .limit s) = .answered 0#32 0x19#8 0x80#8 := by decide

theorem test_hyp_RdtempfAnswersTheTemperature :
    let s := simulated
    s.handle.bound = true ∧ Sel.ambient ≠ .config
      ∧ environmentAnswer (selectRequest .ambient s) s = .answered 0#32 0x19#8 0x80#8
      ∧ environmentAnswer (dataRequest 2 s) (afterSelect .ambient s) = .answered 0#32 0x19#8 0x80#8 := by decide

theorem test_hyp_RdcfgAnswersTheConfiguration :
    let s := scripted [good 0#8 0#8, good 0x65#8 0#8] []
    s.handle.bound = true ∧ environmentAnswer (selectRequest .config s) s = .answered 0#32 0#8 0#8
      ∧ environmentAnswer (dataRequest 1 s) (afterSelect .config s) = .answered 0#32 0x65#8 0#8 := by decide

theorem test_hyp_FailedSelectEndsTheRead :
    let s := scripted [.answered 0xFFFFFFFB#32 0#8 0#8] []
    s.handle.bound = true ∧ (0xFFFFFFFB#32 ≠ 0#32)
      ∧ environmentAnswer (selectRequest .hyst s) s = .answered 0xFFFFFFFB#32 0#8 0#8
      ∧ environmentAnswer (selectRequest .config s) s = .answered 0xFFFFFFFB#32 0#8 0#8 := by decide

theorem test_hyp_FailedDataEndsTheRead :
    let s := scripted [good 0#8 0#8, .answered 7#32 0xAA#8 0#8] []
    s.handle.bound = true ∧ (7#32 ≠ 0#32)
      ∧ environmentAnswer (selectRequest .config s) s = .answered 0#32 0#8 0#8
      ∧ environmentAnswer (dataRequest (registerWidth .config) s) (afterSelect .config s)
        = .answered 7#32 0xAA#8 0#8
      ∧ environmentAnswer (selectRequest .ambient s) s = .answered 0#32 0#8 0#8
      ∧ environmentAnswer (dataRequest (registerWidth .ambient) s) (afterSelect .ambient s)
        = .answered 7#32 0xAA#8 0#8 := by decide

theorem test_hyp_AmbientWriteSucceedsSilently : (scripted [] []).handle.bound = true := by decide

theorem test_hyp_WrtempTransmitsTheEncodedValue :
    let s := scripted [good 0#8 0#8] []
    s.handle.bound = true
      ∧ environmentAnswer (storeRequest .hyst [encTempByte0 47500, encTempByte1 47500] s) s = .answered 0#32 0#8 0#8 := by
  decide

theorem test_hyp_WrtempfTransmitsTheConvertedValue :
    let s := scripted [good 0#8 0#8] []
    s.handle.bound = true ∧ f2v s.params.f2v 0x40980000#32 = some 47500#32
      ∧ environmentAnswer (storeRequest .limit [encTempByte0 47500, encTempByte1 47500] s) s = .answered 0#32 0#8 0#8 := by
  decide +kernel

theorem test_hyp_WrcfgTransmitsTheByte :
    let s := simulated
    s.handle.bound = true
      ∧ environmentAnswer (storeRequest .config [0x60#8] s) s = .answered 0#32 0x19#8 0x80#8 := by decide

/-- One failed store for each of WRTEMP, WRTEMPF and WRCFG. -/
theorem test_hyp_FailedStoreIsReported :
    let s := scripted [.answered 2#32 0#8 0#8] []
    s.handle.bound = true ∧ (2#32 ≠ 0#32)
      ∧ environmentAnswer (storeRequest .hyst [encTempByte0 47500, encTempByte1 47500] s) s = .answered 2#32 0#8 0#8
      ∧ f2v s.params.f2v 0x40980000#32 = some 47500#32
      ∧ environmentAnswer (storeRequest .config [0x60#8] s) s = .answered 2#32 0#8 0#8 := by decide +kernel

theorem test_hyp_FloatFormsDelegate :
    f2v (scripted [] []).params.f2v 0x41F00000#32 = some 300000#32
      ∧ ∃ t, exec (.rdtemp .hyst) (scripted [good 0#8 0#8, good 0x1E#8 0#8] []) = .next t :=
  ⟨by decide +kernel, _, rfl⟩

theorem test_hyp_SilentTransportHangsTheBlock :
    ending .rdcfg (scripted [.silent] [0x1500000000#40]) = .waits
      ∧ ending .rdcfg (scripted [good 0#8 0#8, .silent] []) = .waits
      ∧ ∀ x ∈ (scripted [.silent] [0x1500000000#40]).inputs, ∃ w, x = .command w :=
  ⟨by decide, by decide, fun x hx => ⟨0x1500000000#40, by simpa [scripted] using hx⟩⟩

theorem test_hyp_OperationsLeaveTheRest :
    (∃ t, exec (.enctemp 47500#32) State.reset = .next t)
      ∧ ∃ t, exec (.wrtemp .hyst 47500#32) (scripted [good 0#8 0#8] []) = .next t := ⟨⟨_, rfl⟩, ⟨_, rfl⟩⟩

theorem test_hyp_TransactionsOfAnOperation :
    ∃ t, exec (.rdtemp .hyst) (scripted [good 0#8 0#8, good 0x1E#8 0#8] []) = .next t := ⟨_, rfl⟩

theorem test_hyp_ScratchNeverMatters :
    sameButScratch (scripted [] [])
      { scripted [] [] with handle := { bound with scratch := { b0 := 1#8, b1 := 2#8, b2 := 3#8 } } } := rfl

theorem test_hyp_AddressNotReadWhileUnbound :
    State.reset.handle.bound = false
      ∧ sameButUnreadHandle State.reset { State.reset with handle := { State.reset.handle with addr := 0x7F#7 } } :=
  ⟨rfl, rfl⟩

/-- The state after one select write without an answer meets the invariant, and it steps. -/
theorem test_hyp_StepKeepsInvariant : Inv waiting ∧ step waiting = .next waiting :=
  ⟨{ boundAddr := by decide, traceAddr := by decide, wire := by decide, codes := by decide, port := by decide }, rfl⟩

theorem test_hyp_NegativeZeroDecodesToZero : (0x10#8).extractLsb' 4 4 ≠ 0#4 ∧ (0xFF#8).extractLsb' 4 4 ≠ 0#4 := by
  decide

/-- Both ends of each range. -/
theorem test_hyp_NegativeValuesEncodeUnsigned :
    ((-1 : Int) < 0) ∧ ((-9999 : Int) ≤ -9999 ∧ (-9999 : Int) ≤ -1) ∧ ((-9999 : Int) ≤ -1 ∧ (-1 : Int) ≤ -1) := by decide

theorem test_hyp_LargeValuesWrapAndFractionsAreCut :
    (1280000 ≤ 1280000 ∧ 1280000 < 2560000) ∧ (1280000 ≤ 2559999 ∧ 2559999 < 2560000) := by decide

theorem test_hyp_ResolutionGivesTheStep :
    (0x8F#8 &&& 0x70#8 = 0#8) ∧ (0x80#8 &&& ~~~(fracMask 0#2) = 0#8) ∧ (0xF0#8 &&& ~~~(fracMask 3#2) = 0#8) := by decide

/-- 1677.6875, the largest multiple of 1/16 below 2^24 / 10000, and -0.0. -/
theorem test_hyp_FloatWritesAgreeOnExactProducts :
    (floatFinite (v2f 16776875) = true ∧ floatUnits (v2f 16776875) * 10000 = 16776875 * 2 ^ 149 ∧ 16776875 < 2 ^ 24)
      ∧ (floatFinite 0x80000000#32 = true ∧ floatUnits 0x80000000#32 * 10000 = 0 * 2 ^ 149) := by decide +kernel

theorem test_hyp_FloatFormsRoundTrip : F2VChoice.roundedProduct ≠ .replaced ∧ F2VChoice.exactProduct ≠ .replaced := by
  decide

theorem test_hyp_NotANumberIsInvalid :
    (0x7F800000#32).extractLsb' 23 8 = 0xFF#8 ∧ (0xFFC00001#32).extractLsb' 23 8 = 0xFF#8 := by decide

/-- TF36 for both `invalid` clauses, TF22 below both bounds, and a product between the two bounds (TF35). -/
theorem test_hyp_FiniteOperandsConvertByTruncation :
    (floatFinite 0x4851B740#32 = true ∧ 2 ^ 31 * 2 ^ 149 ≤ floatUnits 0x4851B740#32 * 10000)
      ∧ (floatFinite 0x3F333333#32 = true ∧ floatUnits 0x3F333333#32 * 10000 < (2 ^ 31 - 64) * 2 ^ 149)
      ∧ (floatFinite 0x4851B717#32 = true ∧ (2 ^ 31 - 64) * 2 ^ 149 ≤ floatUnits 0x4851B717#32 * 10000
        ∧ floatUnits 0x4851B717#32 * 10000 < 2 ^ 31 * 2 ^ 149) := by decide +kernel

theorem test_hyp_StepKeepsResolution :
    environmentHeld simulated ∧ step simulated = .next simulated :=
  ⟨fun d h => by cases h; unfold resolutionHeld; decide, rfl⟩

theorem test_hyp_ThresholdReadsBack :
    simulated.handle.bound = true ∧ simulated.env = .device sensor ∧ sensor.addr = simulated.handle.addr := by decide

theorem test_hyp_ConfigurationReadsBack :
    simulated.handle.bound = true ∧ simulated.env = .device sensor ∧ sensor.addr = simulated.handle.addr := by decide

theorem test_hyp_DeviceRegistersKept :
    simulated.env = .device sensor ∧ ∃ t, exec (.wrcfg 0x20#8) simulated = .next t := ⟨rfl, _, rfl⟩

end Sys2Proof.Tests
end

/-! The statements about the state: what one operation changes of it, the invariant of the machine, and what of the
handle an outcome can depend on. -/

namespace Sys2Proof.Machine

/-! ### A run of bus transactions -/

/-- `u` follows `s` by the bus transactions `new`, all sent to the address of a bound handle, with no response yet. -/
structure BusRun (s u : State) (new : List Transaction) : Prop where
  frame : keepsHandle s u
  trace : u.trace = s.trace ++ new
  responses : u.responses = s.responses
  pending : u.pending = s.pending
  addressed : ∀ x ∈ new, s.handle.bound = true ∧ transactionAddr x = s.handle.addr

variable {s t u : State} {new : List Transaction} {i : Instr} {sel : Sel} {v : List Byte} {st : Word} {a : BusAddr}

theorem BusRun.refl (s : State) : BusRun s s [] := ⟨⟨rfl, rfl, rfl, rfl⟩, by simp, rfl, rfl, by simp⟩

theorem BusRun.loseScratch (h : BusRun s u new) : BusRun s (loseScratch u) new :=
  ⟨h.frame, h.trace, h.responses, h.pending, h.addressed⟩

theorem BusRun.putScratch (h : BusRun s u new) (k : Nat) (v : List Byte) : BusRun s (putScratch k v u) new :=
  ⟨h.frame, h.trace, h.responses, h.pending, h.addressed⟩

theorem BusRun.freshened (h : BusRun s u new) (k : Nat) : BusRun s { u with fresh := k } new :=
  ⟨h.frame, h.trace, h.responses, h.pending, h.addressed⟩

theorem BusRun.withBusy (h : BusRun s u new) (b : Bool) : BusRun s { u with busy := b } new :=
  ⟨h.frame, h.trace, h.responses, h.pending, h.addressed⟩

/-- One more transaction, sent to the bound handle's address. -/
theorem BusRun.transact (h : BusRun s u new) (hb : s.handle.bound = true) (q : Request)
    (hq : transactionAddr (traceEntry q (environmentAnswer q u)) = s.handle.addr) :
    BusRun s (transact q u) (new ++ [traceEntry q (environmentAnswer q u)]) where
  frame := h.frame
  trace := by rw [transact_trace, h.trace, List.append_assoc]
  responses := h.responses
  pending := h.pending
  addressed := by
    intro x hx
    rcases List.mem_append.mp hx with hx | hx
    · exact h.addressed x hx
    · exact ⟨hb, List.mem_singleton.mp hx ▸ hq⟩

/-! ### The wire protocol of one register access (20_memory.md rules R35 to R38) -/

theorem wireStep_select_silent (a : BusAddr) (sel : Sel) :
    wireStep .idle (.write a [selectByte sel] none) = some .hung := by cases sel <;> rfl

theorem wireStep_select_failed (a : BusAddr) (sel : Sel) (hst : st ≠ 0#32) :
    wireStep .idle (.write a [selectByte sel] (some st)) = some .idle := by
  cases sel <;> simp [wireStep, selectByte, Sel.code, hst]

theorem wireStep_select_done (a : BusAddr) (sel : Sel) :
    wireStep .idle (.write a [selectByte sel] (some 0#32)) = some (.selected a (selectByte sel)) := by
  cases sel <;> rfl

/-- The read that follows a select is of the selected register's width. -/
theorem wireStep_data (a : BusAddr) (sel : Sel) (x : Answer) :
    wireStep (.selected a (selectByte sel)) (.read a (registerWidth sel) (answerData (registerWidth sel) x))
      = some (if answerStatus x = none then .hung else .idle) := by
  cases x with
  | silent => cases sel <;> simp [wireStep, selectByte, Sel.code, registerWidth, answerData, answerStatus]
  | answered st d0 d1 => cases sel <;> simp [wireStep, selectByte, Sel.code, registerWidth, answerData, answerStatus]

theorem length_of_payloadLegal {p : Byte} (hv : payloadLegal (p :: v) = true) : v.length = 1 ∨ v.length = 2 := by
  match v, hv with
  | [_], _ => exact .inl rfl
  | [_, _], _ => exact .inr rfl

theorem wireStep_store {p : Byte} (hv : payloadLegal (p :: v) = true) (st : Option Word) :
    wireStep .idle (.write a (p :: v) st) = some (if st = none then .hung else .idle) := by
  match v, hv with
  | [_], hv => cases st <;> simp [wireStep, hv]
  | [_, _], hv => cases st <;> simp [wireStep, hv]

/-- A temperature is sent with a half-degree flag (R94). -/
theorem payloadLegal_temperature (h : sel = .hyst ∨ sel = .limit) (value : Int) :
    payloadLegal [selectByte sel, encTempByte0 value, encTempByte1 value] = true := by
  have flag : encTempByte1 value = 0x00#8 ∨ encTempByte1 value = 0x80#8 := by
    unfold encTempByte1; split <;> simp
  rcases h with rfl | rfl <;> rcases flag with h | h <;> simp [payloadLegal, selectByte, Sel.code, h]

/-! ### How an operation other than INIT ends -/

/-- `t` follows `s` by transactions that keep the wire protocol, and then by one legal response, or by none because the
last transaction has no answer (R150, R178). -/
inductive OperationEnds (s : State) : State → Prop where
  | answered {u : State} {new : List Transaction} {k : Kind} {c r : Word} (run : BusRun s u new)
      (busy : u.busy = s.busy) (wire : new.foldlM wireStep .idle = some .idle)
      (legal : responseLegal { kind := k, code := c, result := r } = true) : OperationEnds s (respond k c r u)
  | waits {u : State} {new : List Transaction} (run : BusRun s u new) (busy : u.busy = true)
      (wire : new.foldlM wireStep .idle = some .hung) : OperationEnds s u

theorem OperationEnds.respondOk (run : BusRun s u new) (busy : u.busy = s.busy)
    (wire : new.foldlM wireStep .idle = some .idle) (r : Word) : OperationEnds s (respondOk r u) :=
  .answered run busy wire rfl

theorem OperationEnds.raise {e : Exception} (run : BusRun s u new) (busy : u.busy = s.busy)
    (wire : new.foldlM wireStep .idle = some .idle) (he : ∀ st, e = .transportFailure st → st ≠ 0#32) :
    OperationEnds s (raise e u) :=
  .answered (run.freshened _) busy wire <| by
    cases e with
    | unboundDevice => rfl
    | transportFailure st => exact bne_iff_ne.mpr (he st rfl)
    | illegalCommand => rfl

/-- The answer to a transaction does not depend on what the scratch buffer held before the one that precedes it. -/
theorem environmentAnswer_transact_putScratch (q p : Request) (k : Nat) (v : List Byte) (s : State) :
    environmentAnswer q (transact p (putScratch k v s)) = environmentAnswer q (transact p s) := rfl

theorem traceEntry_select (sel : Sel) (s : State) (x : Answer) :
    traceEntry (selectRequest sel s) x = .write s.handle.addr [selectByte sel] (answerStatus x) := rfl

theorem traceEntry_store (sel : Sel) (v : List Byte) (s : State) (x : Answer) :
    traceEntry (storeRequest sel v s) x = .write s.handle.addr (selectByte sel :: v) (answerStatus x) := rfl

/-- A register read of the register's width ends so: the wire is idle again unless the transport is silent (R37). -/
theorem conclude_memRead_ends (hb : s.handle.bound = true) (sel : Sel) (f : Byte × Byte → Word) :
    OperationEnds s (conclude (memRead sel (registerWidth sel) s) f) := by
  have select := (BusRun.refl s).transact hb (selectRequest sel s) rfl
  have data := select.transact hb (.read s.handle.addr (registerWidth sel)) rfl
  have selectWaits := ((BusRun.refl s).putScratch 0 [selectByte sel]).transact hb (selectRequest sel s) rfl
  have dataWaits := selectWaits.transact hb (.read s.handle.addr (registerWidth sel)) rfl
  rcases conclude_memRead_cases sel (registerWidth sel) f s with ⟨h1, h⟩ | ⟨st, x, y, hst, h1, h⟩ | ⟨x, y, h1, h2, h⟩
    | ⟨x, y, st, d0, d1, hst, h1, h2, h⟩ | ⟨x, y, d0, d1, h1, h2, h⟩ <;> rw [h]
  · refine .waits (selectWaits.withBusy true) rfl ?_
    simp [traceEntry_select, h1, answerStatus, wireStep_select_silent]
  · refine .raise select.loseScratch rfl ?_ (by simpa using hst)
    simp [traceEntry_select, h1, answerStatus, wireStep_select_failed _ _ hst]
  · refine .waits (dataWaits.withBusy true) rfl ?_
    simp [traceEntry_select, environmentAnswer_transact_putScratch, h1, h2, answerStatus, wireStep_select_done,
      wireStep_data]
  · refine .raise data.loseScratch rfl ?_ (by simpa using hst)
    simp [traceEntry_select, h1, h2, answerStatus, wireStep_select_done, wireStep_data]
  · refine .respondOk data.loseScratch rfl ?_ _
    simp [traceEntry_select, h1, h2, answerStatus, wireStep_select_done, wireStep_data]

/-- So does a register write of a legal payload (R38). -/
theorem conclude_memWrite_ends (hb : s.handle.bound = true) (hv : payloadLegal (selectByte sel :: v) = true)
    (g : Unit → Word) : OperationEnds s (conclude (memWrite sel v s) g) := by
  have store := (BusRun.refl s).transact hb (storeRequest sel v s) rfl
  have storeWaits := (((BusRun.refl s).putScratch 0 [selectByte sel]).putScratch 1 v).transact hb
    (storeRequest sel v s) rfl
  rcases conclude_memWrite_cases sel v g s (length_of_payloadLegal hv) with ⟨h1, h⟩ | ⟨st, x, y, hst, h1, h⟩
    | ⟨x, y, h1, h⟩ <;> rw [h]
  · refine .waits (storeWaits.withBusy true) rfl ?_
    simp [traceEntry_store, h1, answerStatus, wireStep_store hv]
  · refine .raise store.loseScratch rfl ?_ (by simpa using hst)
    simp [traceEntry_store, h1, answerStatus, wireStep_store hv]
  · refine .respondOk store.loseScratch rfl ?_ _
    simp [traceEntry_store, h1, answerStatus, wireStep_store hv]

/-- Every operation but INIT ends so, whether or not it uses the bus. -/
theorem exec_ends_of_ne_init (hi : ∀ low, i ≠ .init low) (h : exec i s = .next t) : OperationEnds s t := by
  have run := BusRun.refl s
  rcases exec_cases i s with ⟨e, s', he, hs, h1⟩ | ⟨r, s', hs, h1⟩ | ⟨low, hlow, _⟩ | ⟨hb, sel, f, hsel, h1⟩
    | ⟨hb, sel, v, hv, h1⟩
  · obtain rfl : raise e s' = t := by rw [h1] at h; cases h; rfl
    have code : ∀ st, e = .transportFailure st → st ≠ 0#32 := by rcases he with rfl | rfl <;> simp
    rcases hs with rfl | rfl
    · exact .raise run rfl rfl code
    · exact .raise run.loseScratch rfl rfl code
  · obtain rfl : respondOk r s' = t := by rw [h1] at h; cases h; rfl
    rcases hs with rfl | rfl
    · exact .respondOk run rfl rfl r
    · exact .respondOk run.loseScratch rfl rfl r
  · exact absurd hlow (hi low)
  · cases h1.symm.trans h
    exact conclude_memRead_ends hb sel f
  · cases h1.symm.trans h
    refine conclude_memWrite_ends hb ?_ _
    rcases hv with ⟨hsel, value, rfl, _⟩ | ⟨rfl, raw, rfl, _⟩
    · exact payloadLegal_temperature hsel value
    · rfl

/-- The handle bound to the address that INIT's operand names (R121). -/
def bindHandle (low : BitVec 3) (s : State) : State :=
  { s with handle := { s.handle with addr := busAddress s.params.addrBase low, bound := true } }

theorem exec_init (low : BitVec 3) (s : State) :
    exec (.init low) s = .next (respondOk 0#32 (loseScratch (bindHandle low s))) := rfl

/-- Everything an operation can do: INIT binds and answers OK; any other one ends as `OperationEnds` says. -/
theorem exec_ends (h : exec i s = .next t) :
    (∃ low, i = .init low ∧ t = respondOk 0#32 (loseScratch (bindHandle low s)))
      ∨ ((∀ low, i ≠ .init low) ∧ OperationEnds s t) := by
  by_cases hi : ∃ low, i = .init low
  · obtain ⟨low, rfl⟩ := hi
    exact .inl ⟨low, rfl, by rw [exec_init] at h; cases h; rfl⟩
  · have hi' : ∀ low, i ≠ .init low := fun low hlow => hi ⟨low, hlow⟩
    exact .inr ⟨hi', exec_ends_of_ne_init hi' h⟩

/-! ### What an operation leaves unchanged (O9, O27) -/

theorem OperationEnds.keepsHandle (h : OperationEnds s t) : keepsHandle s t := by
  cases h with
  | answered run => exact run.frame
  | waits run => exact run.frame

theorem OperationEnds.trace_grows (h : OperationEnds s t) : ∃ new, t.trace = s.trace ++ new := by
  cases h with
  | answered run => exact ⟨_, run.trace⟩
  | waits run => exact ⟨_, run.trace⟩

theorem exec_params_inputs (h : exec i s = .next t) : t.params = s.params ∧ t.inputs = s.inputs := by
  rcases exec_ends h with ⟨low, _, rfl⟩ | ⟨_, ends⟩
  · exact ⟨rfl, rfl⟩
  · obtain ⟨_, _, hparams, hinputs⟩ := ends.keepsHandle
    exact ⟨hparams, hinputs⟩

theorem exec_trace_grows (h : exec i s = .next t) : ∃ new, t.trace = s.trace ++ new := by
  rcases exec_ends h with ⟨low, _, rfl⟩ | ⟨_, ends⟩
  · exact ⟨[], (List.append_nil _).symm⟩
  · exact ends.trace_grows

theorem exec_responses_grow (h : exec i s = .next t) : ∃ new, t.responses = s.responses ++ new := by
  rcases exec_answers h with ⟨r, ⟨hr, _⟩, _⟩ | ⟨_, hr, _⟩
  · exact ⟨[r], hr⟩
  · exact ⟨[], by simp [hr]⟩

theorem exec_keeps_handle (hi : ∀ low, i ≠ .init low) (h : exec i s = .next t) :
    t.handle.bound = s.handle.bound ∧ t.handle.addr = s.handle.addr := by
  obtain ⟨hbound, haddr, _, _⟩ := (exec_ends_of_ne_init hi h).keepsHandle
  exact ⟨hbound, haddr⟩

/-- No operation clears `H.BOUND` (R11). -/
theorem exec_keeps_bound (h : exec i s = .next t) (hb : s.handle.bound = true) : t.handle.bound = true := by
  rcases exec_ends h with ⟨low, _, rfl⟩ | ⟨hi, _⟩
  · rfl
  · rw [(exec_keeps_handle hi h).1, hb]

/-- A codec operation answers OK and does nothing else (R128). -/
theorem exec_codec (hi : (∃ b0 b1, i = .dectemp b0 b1) ∨ (∃ v, i = .enctemp v) ∨ (∃ raw, i = .deccfg raw)
    ∨ (∃ p, i = .enccfg p)) (s : State) : ∃ r, exec i s = .next (respondOk r s) := by
  rcases hi with ⟨b0, b1, rfl⟩ | ⟨v, rfl⟩ | ⟨raw, rfl⟩ | ⟨p, rfl⟩ <;> exact ⟨_, rfl⟩

/-- Settles O27: INIT and the codec operations are their own equations; the rest is what every operation does. -/
theorem operationsLeaveTheRest : Obligations.OperationsLeaveTheRest := by
  intro i s t h
  obtain ⟨hparams, hinputs⟩ := exec_params_inputs h
  refine ⟨hparams, hinputs, exec_responses_grow h, exec_trace_grows h, fun hi => exec_keeps_handle hi h, ?_, ?_⟩
  · rintro (⟨low, rfl⟩ | hcodec)
    · cases (exec_init low s).symm.trans h
      exact ⟨rfl, rfl, rfl⟩
    · obtain ⟨r, hr⟩ := exec_codec hcodec s
      cases hr.symm.trans h
      exact ⟨rfl, rfl, rfl⟩
  · intro hcodec
    obtain ⟨r, hr⟩ := exec_codec hcodec s
    cases hr.symm.trans h
    rfl

/-- Only a reset request clears `H.BOUND` of the signals. -/
theorem receive_keeps_bound {x : Signal} (hx : x ≠ .reset) (s : State) :
    (receive x s).handle.bound = s.handle.bound := by
  cases x with
  | take => rfl
  | reset => exact absurd rfl hx
  | measurement r => rfl

/-- Settles O9, by the cases of a step: of everything a step can do, only receiving a reset request clears `H.BOUND`. -/
theorem onlyResetUnbinds : Obligations.OnlyResetUnbinds := by
  intro s t h hs ht
  rcases step_cases s with ⟨_, _, h1⟩ | h1 | ⟨x, rest, hfirst, hready, hbusy, h1⟩ | ⟨_, w, rest, e, _, _, h1⟩
    | ⟨_, w, rest, i, _, _, h1⟩ <;> rw [h1] at h
  · cases h
  · cases h
    simp [hs] at ht
  · cases h
    by_cases hx : x = .reset
    · subst hx
      exact ⟨hbusy rfl, rest, hfirst, hready⟩
    · rw [receive_keeps_bound hx] at ht
      simp [hs] at ht
  · cases h
    simp [hs] at ht
  · simp [exec_keeps_bound h hs] at ht

/-! ### The invariant (O31, O32) -/

theorem Inv.loseScratch (h : Inv s) : Inv (loseScratch s) :=
  ⟨h.boundAddr, h.traceAddr, h.wire, h.codes, h.port⟩

theorem Inv.withInputs (h : Inv s) (rest : List Input) : Inv { s with inputs := rest } :=
  ⟨h.boundAddr, h.traceAddr, h.wire, h.codes, h.port⟩

/-- A legal response given while no operation is in flight. -/
theorem Inv.respond (h : Inv s) (hb : s.busy = false) {k : Kind} {c r : Word}
    (legal : responseLegal { kind := k, code := c, result := r } = true) : Inv (respond k c r s) where
  boundAddr := h.boundAddr
  traceAddr := h.traceAddr
  wire := h.wire
  codes := by
    intro x hx
    rcases List.mem_append.mp hx with hx | hx
    · exact h.codes x hx
    · exact List.mem_singleton.mp hx ▸ legal
  port := by
    intro x hx
    cases hx
    exact ⟨hb, by simp⟩

/-- A block with no operation in flight and no response waiting, after transactions that lead where `busy` says. -/
theorem Inv.busRun (h : Inv s) (hb : s.busy = false) (hp : s.pending = none) (run : BusRun s u new)
    (wire : new.foldlM wireStep .idle = some (if u.busy then .hung else .idle)) : Inv u := by
  obtain ⟨hbound, haddr, hparams, _⟩ := run.frame
  refine ⟨?_, ?_, ?_, ?_, ?_⟩
  · rw [hbound, haddr, hparams]; exact h.boundAddr
  · intro x hx
    rw [hparams]
    rcases List.mem_append.mp (run.trace ▸ hx) with hx | hx
    · exact h.traceAddr x hx
    · obtain ⟨bound, sent⟩ := run.addressed x hx
      rw [sent]; exact h.boundAddr bound
  · have start : wireEnd s.trace = some .idle := by rw [h.wire, hb]; rfl
    rw [wireEnd] at start ⊢
    rw [run.trace, List.foldlM_append, start]
    exact wire
  · rw [run.responses]; exact h.codes
  · rw [run.pending, hp]; simp

theorem Inv.operationEnds (h : Inv s) (hr : ready s = true) (ht : OperationEnds s t) : Inv t := by
  obtain ⟨hb, hp⟩ := ready_iff.mp hr
  cases ht with
  | answered run busy wire legal =>
    exact (h.busRun hb hp run (by simp [busy, hb, wire])).respond (busy.trans hb) legal
  | waits run busy wire => exact h.busRun hb hp run (by simp [busy, wire])

theorem highBits_busAddress (base : BitVec 4) (low : BitVec 3) : highBits (busAddress base low) = base := by
  revert base low; decide

theorem Inv.bindHandle (h : Inv s) (low : BitVec 3) : Inv (bindHandle low s) :=
  ⟨fun _ => highBits_busAddress _ low, h.traceAddr, h.wire, h.codes, h.port⟩

theorem Inv.exec (h : Inv s) (hr : ready s = true) (ht : exec i s = .next t) : Inv t := by
  rcases exec_ends ht with ⟨low, _, rfl⟩ | ⟨_, ends⟩
  · exact (h.bindHandle low).loseScratch.respond (ready_iff.mp hr).1 rfl
  · exact h.operationEnds hr ends

theorem Inv.receive (h : Inv s) (x : Signal) : Inv (receive x s) := by
  cases x with
  | take => exact ⟨h.boundAddr, h.traceAddr, h.wire, h.codes, fun _ hr => nomatch hr⟩
  | reset => exact ⟨fun hb => (nomatch hb), h.traceAddr, h.wire, h.codes, fun _ hr => nomatch hr⟩
  | measurement r => exact ⟨h.boundAddr, h.traceAddr, h.wire, h.codes, h.port⟩

/-- Settles O32, by the cases of a step: a signal, an illegal word, or an operation of a ready block, whose
transactions lead the wire from idle to idle, or to hung where the block stays busy. -/
theorem stepKeepsInvariant : Obligations.StepKeepsInvariant := by
  intro s t h ht
  rcases step_cases s with ⟨_, _, hs⟩ | hs | ⟨x, rest, _, _, _, hs⟩ | ⟨hr, w, rest, e, _, _, hs⟩
    | ⟨hr, w, rest, i, _, _, hs⟩ <;> rw [hs] at ht
  · cases ht
  · cases ht; exact h
  · cases ht; exact (h.withInputs rest).receive x
  · cases ht; exact (h.withInputs rest).operationEnds hr (.raise (.refl _) rfl rfl (by simp))
  · exact (h.withInputs rest).exec hr ht

/-- Settles O31: no handle is bound and the records are empty. -/
theorem invariantAtReset : Obligations.InvariantAtReset where
  boundAddr := by decide
  traceAddr := by decide
  wire := by decide
  codes := by decide
  port := by decide

/-! ### What an outcome can depend on (O29, O30) -/

/-- `s` with other contents of `H.ADDR` and the scratch buffer. -/
def withUnread (a : BusAddr) (c : Scratch) (s : State) : State :=
  { s with handle := { s.handle with addr := a, scratch := c } }

/-- `t` is `s` but for what the scratch buffer and, unless `addrKept`, `H.ADDR` hold: `sameButScratch` and
`sameButUnreadHandle` in one. -/
def sameButUnread (addrKept : Prop) (s t : State) : Prop :=
  ∃ a c, (addrKept → a = s.handle.addr) ∧ t = withUnread a c s

theorem sameButUnread_true_iff : sameButUnread True s t ↔ sameButScratch s t := by
  constructor
  · rintro ⟨a, c, ha, rfl⟩
    obtain rfl := ha trivial
    rfl
  · intro h
    exact ⟨_, t.handle.scratch, fun _ => rfl, h⟩

theorem sameButUnread_false_iff : sameButUnread False s t ↔ sameButUnreadHandle s t := by
  constructor
  · rintro ⟨a, c, _, rfl⟩
    rfl
  · intro h
    exact ⟨t.handle.addr, t.handle.scratch, False.elim, h⟩

theorem outcomesRelated_congr {R R' : State → State → Prop} (h : ∀ s t, R s t ↔ R' s t)
    (x y : Host.Outcome State Fault Refusal) : outcomesRelated R x y ↔ outcomesRelated R' x y := by
  cases x <;> cases y <;> simp [outcomesRelated, h]

section
variable {K : Prop}

theorem sameButUnread.refl (s : State) : sameButUnread K s s := ⟨_, _, fun _ => rfl, rfl⟩

theorem sameButUnread.mono {L : Prop} (h : sameButUnread K s t) (hK : L → K) : sameButUnread L s t := by
  obtain ⟨a, c, ha, rfl⟩ := h
  exact ⟨a, c, fun hL => ha (hK hL), rfl⟩

theorem sameButUnread.bound (h : sameButUnread K s t) : t.handle.bound = s.handle.bound := by
  obtain ⟨a, c, _, rfl⟩ := h
  rfl

theorem sameButUnread.params (h : sameButUnread K s t) : t.params = s.params := by
  obtain ⟨a, c, _, rfl⟩ := h
  rfl

/-- What the block sees of its ports does not depend on the two. -/
theorem sameButUnread.ports (h : sameButUnread K s t) :
    t.inputs = s.inputs ∧ t.busy = s.busy ∧ ready t = ready s := by
  obtain ⟨a, c, _, rfl⟩ := h
  exact ⟨rfl, rfl, rfl⟩

theorem sameButUnread.withInputs (h : sameButUnread K s t) (rest : List Input) :
    sameButUnread K { s with inputs := rest } { t with inputs := rest } := by
  obtain ⟨a, c, ha, rfl⟩ := h
  exact ⟨a, c, ha, rfl⟩

theorem sameButUnread.loseScratch (h : sameButUnread K s t) : sameButUnread K (loseScratch s) (loseScratch t) := by
  obtain ⟨a, c, ha, rfl⟩ := h
  exact ⟨a, _, ha, rfl⟩

theorem sameButUnread.respondOk (h : sameButUnread K s t) (r : Word) :
    sameButUnread K (respondOk r s) (respondOk r t) := by
  obtain ⟨a, c, ha, rfl⟩ := h
  exact ⟨a, c, ha, rfl⟩

theorem sameButUnread.raise (h : sameButUnread K s t) (e : Exception) :
    sameButUnread K (raise e s) (raise e t) := by
  obtain ⟨a, c, ha, rfl⟩ := h
  exact ⟨a, c, ha, rfl⟩

theorem sameButUnread.receive (h : sameButUnread K s t) (x : Signal) :
    sameButUnread K (receive x s) (receive x t) := by
  obtain ⟨a, c, ha, rfl⟩ := h
  cases x with
  | take => exact ⟨a, c, ha, rfl⟩
  | reset => exact .refl _
  | measurement r => exact ⟨a, c, ha, rfl⟩

/-- A register read overwrites what it sends of the scratch buffer. -/
theorem sameButUnread.memRead (h : sameButUnread True s t) (sel : Sel) (n : Nat) (f : Byte × Byte → Word) :
    sameButUnread K (conclude (memRead sel n s) f) (conclude (memRead sel n t) f) := by
  obtain ⟨a, c, ha, rfl⟩ := h
  obtain rfl := ha trivial
  rcases conclude_memRead_cases sel n f s with ⟨h1, h⟩ | ⟨st, x, y, hst, h1, h⟩ | ⟨x, y, h1, h2, h⟩
    | ⟨x, y, st, d0, d1, hst, h1, h2, h⟩ | ⟨x, y, d0, d1, h1, h2, h⟩ <;> rw [h]
  · rw [conclude_memRead_selectSilent (s := withUnread _ c s) h1]
    exact ⟨_, _, fun _ => rfl, rfl⟩
  · rw [conclude_memRead_selectFailed (s := withUnread _ c s) h1 hst]
    exact .refl _
  · rw [conclude_memRead_dataSilent (s := withUnread _ c s) h1 h2]
    exact ⟨_, _, fun _ => rfl, rfl⟩
  · rw [conclude_memRead_dataFailed (s := withUnread _ c s) h1 h2 hst]
    exact .refl _
  · rw [conclude_memRead_done (s := withUnread _ c s) h1 h2]
    exact .refl _

/-- So does a register write. -/
theorem sameButUnread.memWrite (h : sameButUnread True s t) (sel : Sel) (hv : v.length = 1 ∨ v.length = 2)
    (g : Unit → Word) : sameButUnread K (conclude (memWrite sel v s) g) (conclude (memWrite sel v t) g) := by
  obtain ⟨a, c, ha, rfl⟩ := h
  obtain rfl := ha trivial
  rcases conclude_memWrite_cases sel v g s hv with ⟨h1, h⟩ | ⟨st, x, y, hst, h1, h⟩ | ⟨x, y, h1, h⟩ <;> rw [h]
  · rw [conclude_memWrite_silent (s := withUnread _ c s) hv h1]
    exact ⟨_, _, fun _ => rfl, rfl⟩
  · rw [conclude_memWrite_failed (s := withUnread _ c s) hv h1 hst]
    exact .refl _
  · rw [conclude_memWrite_done (s := withUnread _ c s) hv h1]
    exact .refl _

theorem sameButUnread.writeTemperature (h : sameButUnread True s t) (sel : Sel) (value : Int) :
    sameButUnread K (writeTemperature sel value s) (writeTemperature sel value t) :=
  h.memWrite sel (.inr rfl) _

theorem sameButUnread.bindHandle (h : sameButUnread K s t) (low : BitVec 3) :
    sameButUnread K (bindHandle low s) (bindHandle low t) := by
  obtain ⟨a, c, _, rfl⟩ := h
  exact ⟨_, c, fun _ => rfl, rfl⟩

/-- The checks read neither; the body runs on a bound handle only. -/
theorem sameButUnread.busOperation (h : sameButUnread K s t) (hK : s.handle.bound = true → K) (legal : Bool)
    {body : State → State} (hbody : sameButUnread True s t → sameButUnread K (body s) (body t)) :
    outcomesRelated (sameButUnread K) (busOperation legal body s) (busOperation legal body t) := by
  rcases busOperation_cases legal body s with ⟨hl, hs⟩ | ⟨hl, hu, hs⟩ | ⟨hl, hb, hs⟩ <;> rw [hs]
  · rw [busOperation_illegal hl]
    exact h.raise _
  · rw [busOperation_unbound hl (h.bound.trans hu)]
    exact h.loseScratch.raise _
  · rw [busOperation_bound hl (h.bound.trans hb)]
    exact hbody (h.mono fun _ => hK hb)

/-- An operation depends on `H.ADDR` where the handle is bound only, and never on the scratch buffer. -/
theorem sameButUnread.exec (h : sameButUnread K s t) (hK : s.handle.bound = true → K) (i : Instr) :
    outcomesRelated (sameButUnread K) (exec i s) (exec i t) := by
  cases i with
  | init low => exact (h.bindHandle low).loseScratch.respondOk _
  | dectemp b0 b1 => exact h.respondOk _
  | enctemp value => exact h.respondOk _
  | deccfg raw => exact h.respondOk _
  | enccfg packed => exact h.respondOk _
  | rdtemp sel =>
    simp only [Machine.exec, execRdtemp]
    exact h.busOperation hK _ fun h' => h'.memRead ..
  | rdtempf sel =>
    simp only [Machine.exec, execRdtempf]
    exact h.busOperation hK _ fun h' => h'.memRead ..
  | rdcfg =>
    simp only [Machine.exec, execRdcfg]
    exact h.busOperation hK _ fun h' => h'.memRead ..
  | wrcfg raw =>
    simp only [Machine.exec, execWrcfg]
    exact h.busOperation hK _ fun h' => h'.memWrite _ (.inl rfl) _
  | wrtemp sel value =>
    simp only [Machine.exec, execWrtemp]
    refine h.busOperation hK _ fun h' => ?_
    by_cases ha : sel = .ambient
    · simpa only [if_pos ha] using h.loseScratch.respondOk _
    · simpa only [if_neg ha] using h'.writeTemperature sel _
  | wrtempf sel f =>
    simp only [Machine.exec, execWrtempf]
    refine h.busOperation hK _ fun h' => ?_
    by_cases ha : sel = .ambient
    · simpa only [if_pos ha] using h.loseScratch.respondOk _
    · simp only [if_neg ha, h.params]
      cases f2v s.params.f2v f with
      | none => exact h.loseScratch.raise _
      | some v => exact h'.writeTemperature sel _

/-- So does a step: which input it takes is decided by the ports alone. -/
theorem sameButUnread.step (h : sameButUnread K s t) (hK : s.handle.bound = true → K) :
    outcomesRelated (sameButUnread K) (step s) (step t) := by
  obtain ⟨hin, hbusy, hready⟩ := h.ports
  cases hr : ready s with
  | true =>
    rw [hr] at hready
    have idle := (ready_iff.mp hr).1
    match hi : s.inputs with
    | [] =>
      rw [step_idle hr hi, step_idle hready (hin.trans hi)]
      exact h
    | .signal x :: rest =>
      have first : firstSignal s.inputs = some (x, rest) := by rw [hi]; rfl
      rw [step_signal first (fun _ => hi) (by simp [idle]),
        step_signal (s := t) (hin ▸ first) (fun _ => hin.trans hi) (by simp [hbusy, idle])]
      exact (h.withInputs rest).receive x
    | .command w :: rest =>
      cases hd : decode w with
      | error e =>
        rw [step_illegal hr hi hd, step_illegal hready (hin.trans hi) hd]
        exact (h.withInputs rest).raise _
      | ok i =>
        rw [step_command hr hi hd, step_command hready (hin.trans hi) hd]
        exact (h.withInputs rest).exec hK i
  | false =>
    rw [hr] at hready
    by_cases hb : s.busy = true ∧ Input.signal .reset ∈ s.inputs
    · rw [step_resetInFlight hb.1 hb.2, step_resetInFlight (hbusy.trans hb.1) (hin ▸ hb.2)]
      rfl
    · have quiet : s.busy = true → Input.signal .reset ∉ s.inputs := fun hs hm => hb ⟨hs, hm⟩
      have quiet' : t.busy = true → Input.signal .reset ∉ t.inputs := by rwa [hbusy, hin]
      cases first : firstSignal s.inputs with
      | none =>
        rw [step_wait hr first quiet, step_wait hready (hin ▸ first) quiet']
        exact h
      | some p =>
        obtain ⟨x, rest⟩ := p
        rw [step_signal first (by simp [hr]) quiet, step_signal (s := t) (hin ▸ first) (by simp [hready]) quiet']
        exact (h.withInputs rest).receive x

end

/-- Settles O29, by the step lemma with `H.ADDR` kept and only the scratch buffer free. -/
theorem scratchNeverMatters : Obligations.ScratchNeverMatters := fun _ _ h =>
  (outcomesRelated_congr (fun _ _ => sameButUnread_true_iff) _ _).mp
    ((sameButUnread_true_iff.mpr h).step fun _ => trivial)

/-- Settles O30, by the step lemma with both free, which it allows on an unbound handle. -/
theorem addressNotReadWhileUnbound : Obligations.AddressNotReadWhileUnbound := fun _ _ hb h =>
  (outcomesRelated_congr (fun _ _ => sameButUnread_false_iff) _ _).mp
    ((sameButUnread_false_iff.mpr h).step fun hbound => by simp [hb] at hbound)

end Sys2Proof.Machine

/-! The statements about the bus and the reference device: how a failed transaction ends an operation, what the device
answers and keeps, and the resolution invariant. -/

namespace Sys2Proof.Machine

variable {s t : State} {d : Device} {i : Instr} {q : Request} {sel : Sel} {v : List Byte} {a : BusAddr} {b0 b1 : Byte}

/-! ### The transactions the reference device takes (20_memory.md rules R45 to R50) -/

@[simp] theorem selectedBy_selectByte (sel : Sel) : selectedBy (selectByte sel) = sel := by cases sel <;> rfl

@[simp] theorem deviceTakes_select : deviceTakes d (.write a [selectByte sel]) = (a == d.addr) := by
  cases sel <;> simp [deviceTakes, selectByte, Sel.code]

@[simp] theorem deviceTakes_read {n : Nat} : deviceTakes d (.read a n) = (a == d.addr) := rfl

@[simp] theorem deviceTakes_configStore {raw : Byte} :
    deviceTakes d (.write a [selectByte .config, raw]) = (a == d.addr) := by
  simp [deviceTakes]

theorem deviceTakes_temperatureStore (h : sel = .hyst ∨ sel = .limit) :
    deviceTakes d (.write a [selectByte sel, b0, b1]) = (a == d.addr) := by
  rcases h with rfl | rfl <;> simp [deviceTakes]

/-! ### What each transaction makes of the device -/

@[simp] theorem deviceStore_addr (d : Device) (sel : Sel) (r : TempReg) : (deviceStore d sel r).addr = d.addr := by
  cases sel <;> rfl

/-- No transaction moves the device (R45). -/
@[simp] theorem deviceAfter_addr (d : Device) (q : Request) : (deviceAfter d q).addr = d.addr := by
  unfold deviceAfter
  split
  · split <;> simp
  · rfl

/-- A write to another address is none of the device's (R45). -/
theorem deviceAfter_otherAddress (h : a ≠ d.addr) : deviceAfter d (.write a v) = d := by
  have refused : deviceTakes d (.write a v) = false := by
    unfold deviceTakes
    split <;> simp_all
  simp [deviceAfter, refused]

theorem deviceAfter_select (h : a = d.addr) : deviceAfter d (.write a [selectByte sel]) = { d with ptr := sel } := by
  simp [deviceAfter, h]

@[simp] theorem deviceAfter_read {n : Nat} : deviceAfter d (.read a n) = d := by simp [deviceAfter]

theorem deviceAfter_configStore {raw : Byte} (h : a = d.addr) :
    deviceAfter d (.write a [selectByte .config, raw])
      = { d with ptr := .config, config := raw, ambient := masked raw d.ambient } := by
  simp [deviceAfter, h]

theorem deviceAfter_temperatureStore (hsel : sel = .hyst ∨ sel = .limit) (h : a = d.addr) :
    deviceAfter d (.write a [selectByte sel, b0, b1])
      = { deviceStore d sel { b0 := b0, b1 := b1 } with ptr := sel } := by
  simp [deviceAfter, deviceTakes_temperatureStore hsel, h]

/-! ### The device behind the transport -/

theorem environmentAfter_device (hd : s.env = .device d) (q : Request) :
    environmentAfter q s = .device (deviceAfter d q) := by simp [environmentAfter, hd]

theorem environmentAnswer_device (hd : s.env = .device d) (hq : deviceTakes d q = true) :
    environmentAnswer q s = .answered 0#32 (deviceData d s.fresh).1 (deviceData d s.fresh).2 := by
  simp [environmentAnswer, hd, deviceAnswer, hq]

theorem newMeasurement_device (hd : s.env = .device d) (r : TempReg) :
    newMeasurement r s = { s with env := .device { d with ambient := masked d.config r } } := by
  simp [newMeasurement, hd]

/-- A register read of the device at the handle's address answers the bytes of the register selected (R47, R50). -/
theorem conclude_memRead_device (hd : s.env = .device d) (ha : d.addr = s.handle.addr) (sel : Sel) (n : Nat)
    (f : Byte × Byte → Word) :
    (conclude (memRead sel n s) f).responses
      = s.responses ++ [okResponse (f (deviceData { d with ptr := sel } (s.fresh + 1)))] := by
  have select := environmentAnswer_device (q := selectRequest sel s) hd (by simp [selectRequest, ha])
  have pointed : (transact (selectRequest sel s) s).env = .device { d with ptr := sel } := by
    rw [transact_env, environmentAfter_device hd, selectRequest, deviceAfter_select ha.symm]
  have data := environmentAnswer_device (q := .read s.handle.addr n) pointed (by simp [ha])
  rw [conclude_memRead_done select data]
  rfl

/-- A register write that the device takes answers OK; a read of the same register, the response taken, answers from the
device as the write left it. -/
theorem conclude_memRead_memWrite_device (hd : s.env = .device d) (ha : d.addr = s.handle.addr)
    (hv : v.length = 1 ∨ v.length = 2) (hq : deviceTakes d (storeRequest sel v s) = true) (n : Nat)
    (f : Byte × Byte → Word) :
    ∃ k, (conclude (memRead sel n (takeResponse (conclude (memWrite sel v s) (fun _ => 0#32)))) f).responses
      = s.responses ++ [okResponse 0#32,
          okResponse (f (deviceData { deviceAfter d (storeRequest sel v s) with ptr := sel } k))] := by
  rw [conclude_memWrite_done hv (environmentAnswer_device hd hq),
    conclude_memRead_device (d := deviceAfter d (storeRequest sel v s)) (environmentAfter_device hd _) (by simp [ha])]
  exact ⟨_, List.append_assoc ..⟩

/-! ### The resolution invariant (O52) -/

theorem resolutionHeld_masked (d : Device) (config : Byte) (r : TempReg) :
    resolutionHeld { d with config := config, ambient := masked config r } := by
  simp [resolutionHeld, masked, BitVec.and_assoc]

/-- Every transaction keeps the invariant: the only one that changes `DEV.CONFIG` masks `DEV.AMBIENT` (R51). -/
theorem resolutionHeld_deviceAfter (h : resolutionHeld d) (q : Request) : resolutionHeld (deviceAfter d q) := by
  unfold deviceAfter
  split
  · split
    · exact h
    · exact resolutionHeld_masked { d with ptr := .config } _ _
    · next p b0 b1 _ => cases hp : selectedBy p <;> exact h
    · exact h
    · exact h
  · exact h

theorem environmentHeld_congr (h : t.env = s.env) : environmentHeld t ↔ environmentHeld s := by
  simp only [environmentHeld, h]

theorem environmentHeld_transact (h : environmentHeld s) (q : Request) : environmentHeld (transact q s) := by
  intro d' hd'
  rw [transact_env] at hd'
  cases env : s.env with
  | oracle listed => simp [environmentAfter, env] at hd'
  | device d =>
    rw [environmentAfter_device env] at hd'
    cases hd'
    exact resolutionHeld_deviceAfter (h d env) q

theorem environmentHeld_newMeasurement (r : TempReg) (s : State) : environmentHeld (newMeasurement r s) := by
  intro d' hd'
  cases env : s.env with
  | oracle listed => simp [newMeasurement, env] at hd'
  | device d =>
    rw [newMeasurement_device env] at hd'
    cases hd'
    exact resolutionHeld_masked d d.config r

theorem environmentHeld_receive (h : environmentHeld s) (x : Signal) : environmentHeld (receive x s) := by
  cases x with
  | take => exact h
  | reset => exact h
  | measurement r => exact environmentHeld_newMeasurement r s

/-! ### What an operation does to the environment -/

/-- The operation `i`, from `s`, is the register write of the bytes `v` to `sel` (R124, R125, R127). -/
def storesTo (i : Instr) (sel : Sel) (v : List Byte) : Prop :=
  ((sel = .hyst ∨ sel = .limit) ∧ (∃ b0 b1, v = [b0, b1]) ∧ ((∃ w, i = .wrtemp sel w) ∨ ∃ f, i = .wrtempf sel f))
    ∨ (sel = .config ∧ ∃ raw, v = [raw] ∧ i = .wrcfg raw)

theorem storesTo_length (h : storesTo i sel v) : v.length = 1 ∨ v.length = 2 := by
  rcases h with ⟨_, ⟨b0, b1, rfl⟩, _⟩ | ⟨_, raw, rfl, _⟩
  · exact .inr rfl
  · exact .inl rfl

theorem conclude_memRead_environment (sel : Sel) (n : Nat) (f : Byte × Byte → Word) (s : State) :
    (conclude (memRead sel n s) f).trace ≠ s.trace
      ∧ ((conclude (memRead sel n s) f).env = (afterSelect sel s).env
        ∨ (conclude (memRead sel n s) f).env = (transact (dataRequest n s) (afterSelect sel s)).env) := by
  rcases conclude_memRead_cases sel n f s with ⟨_, h⟩ | ⟨_, _, _, _, _, h⟩ | ⟨_, _, _, _, h⟩
    | ⟨_, _, _, _, _, _, _, _, h⟩ | ⟨_, _, _, _, _, _, h⟩ <;> rw [h]
  · exact ⟨by simp, .inl rfl⟩
  · exact ⟨by simp, .inl rfl⟩
  · exact ⟨by simp, .inr rfl⟩
  · exact ⟨by simp, .inr rfl⟩
  · exact ⟨by simp, .inr rfl⟩

theorem conclude_memWrite_environment (hv : v.length = 1 ∨ v.length = 2) (g : Unit → Word) :
    (conclude (memWrite sel v s) g).trace ≠ s.trace
      ∧ (conclude (memWrite sel v s) g).env = (transact (storeRequest sel v s) s).env := by
  rcases conclude_memWrite_cases sel v g s hv with ⟨_, h⟩ | ⟨_, _, _, _, _, h⟩ | ⟨_, _, _, h⟩ <;> rw [h]
  · exact ⟨by simp, rfl⟩
  · exact ⟨by simp, rfl⟩
  · exact ⟨by simp, rfl⟩

/-- An operation leaves the bus alone, or selects a register and perhaps reads it, or sends one register write. -/
theorem exec_environment (h : exec i s = .next t) :
    t.env = s.env
      ∨ (t.trace ≠ s.trace ∧ ∃ sel, t.env = (afterSelect sel s).env
          ∨ ∃ n, t.env = (transact (dataRequest n s) (afterSelect sel s)).env)
      ∨ (t.trace ≠ s.trace ∧ ∃ sel v, storesTo i sel v ∧ t.env = (transact (storeRequest sel v s) s).env) := by
  rcases exec_cases i s with ⟨e, s', _, hs, h1⟩ | ⟨r, s', hs, h1⟩ | ⟨low, _, h1⟩ | ⟨_, sel, f, _, h1⟩
    | ⟨_, sel, v, hv, h1⟩ <;> cases h1.symm.trans h
  · rcases hs with rfl | rfl <;> exact .inl rfl
  · rcases hs with rfl | rfl <;> exact .inl rfl
  · exact .inl rfl
  · obtain ⟨used, selected | read⟩ := conclude_memRead_environment sel (registerWidth sel) f s
    · exact .inr (.inl ⟨used, sel, .inl selected⟩)
    · exact .inr (.inl ⟨used, sel, .inr ⟨_, read⟩⟩)
  · have stores : storesTo i sel v := by
      rcases hv with ⟨hsel, value, rfl, ⟨w, rfl, _⟩ | ⟨f, w, rfl, _⟩⟩ | ⟨rfl, raw, rfl, rfl⟩
      · exact .inl ⟨hsel, ⟨_, _, rfl⟩, .inl ⟨w, rfl⟩⟩
      · exact .inl ⟨hsel, ⟨_, _, rfl⟩, .inr ⟨f, rfl⟩⟩
      · exact .inr ⟨rfl, raw, rfl, rfl⟩
    obtain ⟨used, stored⟩ := conclude_memWrite_environment (storesTo_length stores) (s := s) (fun _ => 0#32)
    exact .inr (.inr ⟨used, sel, v, stores, stored⟩)

theorem exec_keeps_environmentHeld (h : environmentHeld s) (ht : exec i s = .next t) : environmentHeld t := by
  have selected (sel : Sel) : environmentHeld (afterSelect sel s) := environmentHeld_transact h _
  rcases exec_environment ht with env | ⟨_, sel, env | ⟨n, env⟩⟩ | ⟨_, sel, v, _, env⟩ <;>
    rw [environmentHeld_congr env]
  · exact h
  · exact selected sel
  · exact environmentHeld_transact (selected sel) _
  · exact environmentHeld_transact h _

/-- Settles O52, by the cases of a step: a measurement arrives masked, and every transaction of an operation keeps the
invariant. -/
theorem stepKeepsResolution : Obligations.StepKeepsResolution := by
  intro s t h ht
  rcases step_cases s with ⟨_, _, hs⟩ | hs | ⟨x, rest, _, _, _, hs⟩ | ⟨_, w, rest, e, _, _, hs⟩
    | ⟨_, w, rest, i, _, _, hs⟩ <;> rw [hs] at ht
  · cases ht
  · cases ht; exact h
  · cases ht; exact environmentHeld_receive (s := { s with inputs := rest }) h x
  · cases ht; exact h
  · exact exec_keeps_environmentHeld (s := { s with inputs := rest }) h ht

/-! ### A failed transaction ends the operation (O17, O18, O23) -/

/-- The read operations are one register read of the register's width, but for the form of the result (R122, R123,
R126). -/
theorem exec_read_bound (hb : s.handle.bound = true)
    (hi : (sel ≠ .config ∧ (i = .rdtemp sel ∨ i = .rdtempf sel)) ∨ (sel = .config ∧ i = .rdcfg)) :
    ∃ f, exec i s = .next (conclude (memRead sel (registerWidth sel) s) f) := by
  rcases hi with ⟨hsel, rfl | rfl⟩ | ⟨rfl, rfl⟩
  · exact ⟨_, registerWidth_of_ne hsel ▸ exec_rdtemp_bound (isTemperature_of_ne hsel) hb⟩
  · exact ⟨_, registerWidth_of_ne hsel ▸ exec_rdtempf_bound (isTemperature_of_ne hsel) hb⟩
  · exact ⟨_, exec_rdcfg_bound hb⟩

/-- Settles O17: a read operation is a register read, which ends at a failed select (D7). -/
theorem failedSelectEndsTheRead : Obligations.FailedSelectEndsTheRead := by
  intro s sel st x y hb hst select i hi
  obtain ⟨f, h⟩ := exec_read_bound hb hi
  rw [conclude_memRead_selectFailed select hst] at h
  refine ⟨_, _, h, ⟨⟨rfl, rfl, rfl, rfl⟩, rfl⟩, ⟨rfl, rfl⟩, ?_, rfl⟩
  simp [traceEntry_select, select, answerStatus]

/-- Settles O18: a read operation is a register read, which ends at the failed read. -/
theorem failedDataEndsTheRead : Obligations.FailedDataEndsTheRead := by
  intro s sel st x y d0 d1 hb hst select data i hi
  obtain ⟨f, h⟩ := exec_read_bound hb hi
  rw [conclude_memRead_dataFailed select data hst] at h
  refine ⟨_, _, h, ⟨⟨rfl, rfl, rfl, rfl⟩, rfl⟩, ⟨rfl, rfl⟩, ?_, rfl⟩
  rw [dataRequest, afterSelect] at data
  simp [traceEntry_select, select, data, answerStatus, answerData]

/-- Settles O23: WRTEMP, WRTEMPF and WRCFG are one register write each, which ends with its one transaction. -/
theorem failedStoreIsReported : Obligations.FailedStoreIsReported := by
  intro s sel v st x y hb hst store i hi
  have h : exec i s = .next (raise (.transportFailure st) (loseScratch (transact (storeRequest sel v s) s))) := by
    rcases hi with ⟨hsel, ⟨value, rfl, rfl⟩ | ⟨f, c, rfl, hf, rfl⟩⟩ | ⟨rfl, raw, rfl, rfl⟩
    · rw [exec_wrtemp_bound hsel hb, int32, writeTemperature_failed hst store]
    · rw [exec_wrtempf_converted hf, exec_wrtemp_bound hsel hb, int32, writeTemperature_failed hst store]
    · rw [exec_wrcfg_bound hb, conclude_memWrite_failed (.inl rfl) store hst]
  refine ⟨_, _, h, ⟨⟨rfl, rfl, rfl, rfl⟩, rfl⟩, ⟨rfl, rfl⟩, ?_, rfl⟩
  simp [traceEntry_store, store, answerStatus]

/-! ### What is written to the device reads back (O53, O54) -/

/-- A temperature written to a writable register stands in it, in bus order. -/
theorem deviceData_deviceStore (h : sel = .hyst ∨ sel = .limit) (r : TempReg) (k : Nat) :
    deviceData { deviceStore d sel r with ptr := sel } k = (r.b0, r.b1) := by
  rcases h with rfl | rfl <;> rfl

/-- Settles O53: the device takes the write, then the select and the read, and the register read is the one written. -/
theorem thresholdReadsBack : Obligations.ThresholdReadsBack := by
  intro s d sel value hb hd ha hsel
  have write := exec_wrtemp_bound (value := value) hsel hb
  have bound := exec_keeps_bound write hb
  obtain ⟨k, responses⟩ := conclude_memRead_memWrite_device (sel := sel)
    (v := [encTempByte0 value.toInt, encTempByte1 value.toInt]) hd ha (.inr rfl)
    (by simp [storeRequest, deviceTakes_temperatureStore hsel, ha]) 2 (fun p => toInt32 (decTemp p.1 p.2))
  rw [storeRequest, deviceAfter_temperatureStore hsel ha.symm, deviceData_deviceStore hsel] at responses
  exact ⟨_, _, write, exec_rdtemp_bound (isTemperature_of_writable hsel) bound, responses⟩

/-- Settles O54: the device takes the write, then the select and the read, and `DEV.CONFIG` is the byte written. -/
theorem configurationReadsBack : Obligations.ConfigurationReadsBack := by
  intro s d raw hb hd ha
  have write := exec_wrcfg_bound (raw := raw) hb
  have bound := exec_keeps_bound write hb
  obtain ⟨k, responses⟩ := conclude_memRead_memWrite_device (sel := .config) (v := [raw]) hd ha (.inl rfl)
    (by simp [storeRequest, ha]) 1 (fun p => cfgResult p.1)
  rw [storeRequest, deviceAfter_configStore ha.symm] at responses
  exact ⟨_, _, write, exec_rdcfg_bound bound, responses⟩

/-! ### What an operation leaves of the device (O55) -/

/-- The registers of `d'` are those of `d`, but for what the operation `i` may write. -/
structure RegistersKept (i : Instr) (d d' : Device) : Prop where
  addr : d'.addr = d.addr
  ambient : d'.ambient = d.ambient ∧ d'.config = d.config
    ∨ ∃ raw, i = .wrcfg raw ∧ d'.config = raw ∧ d'.ambient = masked raw d.ambient
  hyst : d'.hyst = d.hyst ∨ (∃ w, i = .wrtemp .hyst w) ∨ ∃ f, i = .wrtempf .hyst f
  limit : d'.limit = d.limit ∨ (∃ w, i = .wrtemp .limit w) ∨ ∃ f, i = .wrtempf .limit f

theorem registersKept_refl (i : Instr) (d : Device) : RegistersKept i d d :=
  ⟨rfl, .inl ⟨rfl, rfl⟩, .inl rfl, .inl rfl⟩

/-- A select moves `DEV.PTR` only (R47). -/
theorem registersKept_select (i : Instr) (d : Device) (a : BusAddr) (sel : Sel) :
    RegistersKept i d (deviceAfter d (.write a [selectByte sel])) := by
  by_cases ha : a = d.addr
  · rw [deviceAfter_select ha]
    exact ⟨rfl, .inl ⟨rfl, rfl⟩, .inl rfl, .inl rfl⟩
  · rw [deviceAfter_otherAddress ha]
    exact registersKept_refl i d

/-- The operation's register write changes its own register, if the device takes it (R48). -/
theorem registersKept_store (h : storesTo i sel v) (d : Device) (a : BusAddr) :
    RegistersKept i d (deviceAfter d (.write a (selectByte sel :: v))) := by
  by_cases ha : a = d.addr
  · rcases h with ⟨rfl | rfl, ⟨b0, b1, rfl⟩, write⟩ | ⟨rfl, raw, rfl, write⟩
    · rw [deviceAfter_temperatureStore (.inl rfl) ha]
      exact ⟨rfl, .inl ⟨rfl, rfl⟩, .inr write, .inl rfl⟩
    · rw [deviceAfter_temperatureStore (.inr rfl) ha]
      exact ⟨rfl, .inl ⟨rfl, rfl⟩, .inl rfl, .inr write⟩
    · rw [deviceAfter_configStore ha]
      exact ⟨rfl, .inr ⟨raw, write, rfl, rfl⟩, .inl rfl, .inl rfl⟩
  · rw [deviceAfter_otherAddress ha]
    exact registersKept_refl i d

theorem afterSelect_device (hd : s.env = .device d) (sel : Sel) :
    (afterSelect sel s).env = .device (deviceAfter d (selectRequest sel s)) := environmentAfter_device hd _

theorem exec_registersKept (hd : s.env = .device d) (h : exec i s = .next t) :
    ∃ d', t.env = .device d' ∧ RegistersKept i d d' ∧ (d'.ptr = d.ptr ∨ t.trace ≠ s.trace) := by
  rcases exec_environment h with env | ⟨used, sel, env | ⟨n, env⟩⟩ | ⟨used, sel, v, stores, env⟩
  · exact ⟨d, env.trans hd, registersKept_refl i d, .inl rfl⟩
  · exact ⟨_, env.trans (afterSelect_device hd sel), registersKept_select i d _ sel, .inr used⟩
  · rw [transact_env, environmentAfter_device (afterSelect_device hd sel), dataRequest, deviceAfter_read] at env
    exact ⟨_, env, registersKept_select i d _ sel, .inr used⟩
  · exact ⟨_, env.trans (environmentAfter_device hd _), registersKept_store stores d _, .inr used⟩

/-- Settles O55, by what an operation does to the environment: nothing, a select and a read, which move `DEV.PTR` only,
or one register write, taken or refused. -/
theorem deviceRegistersKept : Obligations.DeviceRegistersKept := by
  intro i s t d hd h
  obtain ⟨d', env, kept, ptr⟩ := exec_registersKept hd h
  exact ⟨d', env, kept.addr, kept.ambient, kept.hyst, kept.limit, ptr⟩

/-! ### A new measurement (O11) -/

/-- Settles O11: the measurement is the oldest signal, ready or not, and is received. -/
theorem measurementArrivesMasked : Obligations.MeasurementArrivesMasked := by
  intro s r rest d quiet hi hd
  rw [step_signal (x := .measurement r) (rest := rest) (by rw [hi]; rfl) (fun _ => hi) (by simpa [hi] using quiet),
    receive, newMeasurement_device (s := { s with inputs := rest }) hd]
  rfl

end Sys2Proof.Machine

/-! The statements about the encoding: the fields of a command word and its decoder, what an illegal command does, the
float forms, the transactions of an operation and the layout of a response. -/

namespace Sys2Proof

variable {w : Command} {i j : Instr} {m n : Nat}

/-! ### The fields of a command word (30_encoding.md rules R60 and R61) -/

@[simp] theorem rsvField_commandWord (op : BitVec 4) (sel : BitVec 2) (arg : Word) :
    rsvField (commandWord op sel arg) = 0#2 := by
  rw [rsvField, commandWord, BitVec.extractLsb'_append_eq_of_le (by decide),
    BitVec.extractLsb'_append_eq_of_le (by decide)]
  exact BitVec.extractLsb'_append_eq_left

@[simp] theorem opField_commandWord (op : BitVec 4) (sel : BitVec 2) (arg : Word) :
    opField (commandWord op sel arg) = op := by
  rw [opField, commandWord, BitVec.extractLsb'_append_eq_of_le (by decide),
    BitVec.extractLsb'_append_eq_of_le (by decide)]
  exact BitVec.extractLsb'_append_eq_right

@[simp] theorem selField_commandWord (op : BitVec 4) (sel : BitVec 2) (arg : Word) :
    selField (commandWord op sel arg) = sel := by
  rw [selField, commandWord, BitVec.extractLsb'_append_eq_of_le (by decide)]
  exact BitVec.extractLsb'_append_eq_right

@[simp] theorem argField_commandWord (op : BitVec 4) (sel : BitVec 2) (arg : Word) :
    argField (commandWord op sel arg) = arg :=
  BitVec.extractLsb'_append_eq_right

theorem commandWord_fields (hrsv : rsvField w = 0#2) : commandWord (opField w) (selField w) (argField w) = w := by
  rw [commandWord, ← hrsv, rsvField, opField, selField, argField]
  rw [BitVec.extractLsb'_append_extractLsb'_eq_extractLsb' (by rfl),
    BitVec.extractLsb'_append_extractLsb'_eq_extractLsb' (by rfl),
    BitVec.extractLsb'_append_extractLsb'_eq_extractLsb' (by rfl)]
  exact BitVec.extractLsb'_eq_self

/-- A word is the command word of its fields, however these are given. -/
theorem commandWord_eq {op : Nat} {sel : BitVec 2} {arg : Word} (hrsv : rsvField w = 0#2)
    (hop : (opField w).toNat = op) (hsel : selField w = sel) (harg : arg = argField w) :
    commandWord (BitVec.ofNat 4 op) sel arg = w := by
  rw [← hop, BitVec.ofNat_toNat, BitVec.setWidth_eq, ← hsel, harg, commandWord_fields hrsv]

@[simp] theorem Sel.ofCode_code (sel : Sel) : Sel.ofCode sel.code = sel := by cases sel <;> rfl

@[simp] theorem Sel.code_ofCode (c : BitVec 2) : (Sel.ofCode c).code = c := by revert c; decide

theorem Sel.isTemperature_ofCode_iff (c : BitVec 2) :
    (Sel.ofCode c).isTemperature = true ↔ c.toNat = 0 ∨ c.toNat = 2 ∨ c.toNat = 3 := by revert c; decide

/-! ### Operands narrower than `arg` (30_encoding.md rule R64) -/

theorem ushiftRight_eq_zero_iff (x : BitVec m) (k : Nat) : x >>> k = 0#m ↔ x.toNat < 2 ^ k := by
  rw [← BitVec.toNat_inj, BitVec.toNat_ushiftRight, BitVec.toNat_ofNat, Nat.zero_mod, Nat.shiftRight_eq_div_pow,
    Nat.div_eq_zero_iff]
  simp

theorem ushiftRight_zero_append (x : BitVec n) : (0#m ++ x) >>> n = 0#(m + n) := by
  rw [ushiftRight_eq_zero_iff]
  simpa [BitVec.toNat_append] using x.isLt

theorem zero_append_extractLsb' {x : BitVec (m + n)} (h : x >>> n = 0#(m + n)) : 0#m ++ x.extractLsb' 0 n = x := by
  have high : x.extractLsb' n m = 0#m := by
    apply BitVec.eq_of_toNat_eq
    rw [BitVec.extractLsb'_toNat, ← BitVec.toNat_ushiftRight, h]
    simp
  rw [← high, BitVec.extractLsb'_append_extractLsb']

/-- Both operands of DECTEMP fit the low 16 bits of `arg`. -/
theorem dectempArg_eq (b0 b1 : Byte) : (0#16 ++ b0 ++ b1 : Word) = 0#16 ++ (b0 ++ b1) := by
  rw [BitVec.append_assoc]
  rfl

/-! ### What the checks of the decoder accept (30_encoding.md rules R63, R64, R68) -/

theorem fixedSelector_eq_ok_iff {want : BitVec 2} {used : Nat} :
    fixedSelector want used w i = .ok j ↔ selField w = want ∧ argField w >>> used = 0#32 ∧ i = j := by
  unfold fixedSelector
  by_cases hsel : selField w = want <;> by_cases harg : argField w >>> used = 0#32 <;> simp [hsel, harg]

theorem temperatureSelector_eq_ok_iff {used : Nat} {f : Sel → Instr} :
    temperatureSelector used w f = .ok j ↔
      (Sel.ofCode (selField w)).isTemperature = true ∧ argField w >>> used = 0#32 ∧ f (Sel.ofCode (selField w)) = j := by
  unfold temperatureSelector
  by_cases hsel : (Sel.ofCode (selField w)).isTemperature = true <;>
    by_cases harg : argField w >>> used = 0#32 <;> simp [hsel, harg]

/-! ### The round trip (O1, O2, O4) -/

/-- The word of an operation passes the checks of its row and gives its operands back. -/
theorem decode_encode (h : i.wellFormed = true) : decode (encode i) = .ok i := by
  have byteUnused (b : Byte) : (0#24 ++ b : Word) >>> 8 = 0#32 := ushiftRight_zero_append (m := 24) b
  have byteOperand (b : Byte) : (0#24 ++ b : Word).extractLsb' 0 8 = b := BitVec.extractLsb'_append_eq_right
  cases i with
  | init low =>
    have unused : (0#29 ++ low : Word) >>> 3 = 0#32 := ushiftRight_zero_append (m := 29) low
    have operand : (0#29 ++ low : Word).extractLsb' 0 3 = low := BitVec.extractLsb'_append_eq_right
    simp [encode, decode, fixedSelector_eq_ok_iff, unused, operand]
  | rdtemp sel => simpa [encode, decode, temperatureSelector_eq_ok_iff, Instr.wellFormed] using h
  | rdtempf sel => simpa [encode, decode, temperatureSelector_eq_ok_iff, Instr.wellFormed] using h
  | wrtemp sel value =>
    simpa [encode, decode, temperatureSelector_eq_ok_iff, Instr.wellFormed, BitVec.ushiftRight_eq_zero] using h
  | wrtempf sel f =>
    simpa [encode, decode, temperatureSelector_eq_ok_iff, Instr.wellFormed, BitVec.ushiftRight_eq_zero] using h
  | rdcfg => simp [encode, decode, fixedSelector_eq_ok_iff]
  | wrcfg raw => simp [encode, decode, fixedSelector_eq_ok_iff, byteUnused, byteOperand]
  | dectemp b0 b1 =>
    have first : (0#16 ++ (b0 ++ b1) : Word).extractLsb' 8 8 = b0 := by
      rw [BitVec.extractLsb'_append_eq_of_add_le (by decide)]
      exact BitVec.extractLsb'_append_eq_left
    have second : (0#16 ++ (b0 ++ b1) : Word).extractLsb' 0 8 = b1 := by
      rw [BitVec.extractLsb'_append_eq_of_add_le (by decide)]
      exact BitVec.extractLsb'_append_eq_right
    have unused : (0#16 ++ (b0 ++ b1) : Word) >>> 16 = 0#32 := ushiftRight_zero_append (m := 16) (b0 ++ b1)
    simp [encode, decode, fixedSelector_eq_ok_iff, dectempArg_eq, unused, first, second]
  | enctemp value => simp [encode, decode, fixedSelector_eq_ok_iff, BitVec.ushiftRight_eq_zero]
  | deccfg raw => simp [encode, decode, fixedSelector_eq_ok_iff, byteUnused, byteOperand]
  | enccfg packed => simp [encode, decode, fixedSelector_eq_ok_iff, byteUnused, byteOperand]

/-- A word that passes the checks of a row with a fixed selector is that row's fields, put together again. -/
theorem encode_of_fixedSelector {op used : Nat} {want : BitVec 2} {arg : Word} (hrsv : rsvField w = 0#2)
    (hop : (opField w).toNat = op) (h : fixedSelector want used w i = .ok j) (hi : i.wellFormed = true)
    (word : encode i = commandWord (BitVec.ofNat 4 op) want arg)
    (harg : argField w >>> used = 0#32 → arg = argField w) : j.wellFormed = true ∧ encode j = w := by
  obtain ⟨hsel, unused, rfl⟩ := fixedSelector_eq_ok_iff.mp h
  exact ⟨hi, word.trans (commandWord_eq hrsv hop hsel (harg unused))⟩

/-- So is one that passes the checks of a temperature operation's row. -/
theorem encode_of_temperatureSelector {op used : Nat} {f : Sel → Instr} {arg : Word} (hrsv : rsvField w = 0#2)
    (hop : (opField w).toNat = op) (h : temperatureSelector used w f = .ok j)
    (hf : ∀ sel, (f sel).wellFormed = sel.isTemperature)
    (word : ∀ sel, encode (f sel) = commandWord (BitVec.ofNat 4 op) sel.code arg)
    (harg : argField w >>> used = 0#32 → arg = argField w) : j.wellFormed = true ∧ encode j = w := by
  obtain ⟨hsel, unused, rfl⟩ := temperatureSelector_eq_ok_iff.mp h
  exact ⟨(hf _).trans hsel, (word _).trans (commandWord_eq hrsv hop (Sel.code_ofCode _).symm (harg unused))⟩

/-- What a row's operands leave of `arg` is 0, so that the operands give the whole of it (R64). -/
theorem encode_of_decode (h : decode w = .ok i) : i.wellFormed = true ∧ encode i = w := by
  have noOperand (harg : argField w >>> 0 = 0#32) : 0#32 = argField w := by simpa using harg.symm
  have byteOperand (harg : argField w >>> 8 = 0#32) : 0#24 ++ (argField w).extractLsb' 0 8 = argField w :=
    zero_append_extractLsb' (m := 24) harg
  unfold decode at h
  split at h
  case isFalse => cases h
  case isTrue hrsv =>
    split at h
    case h_1 hop => exact encode_of_fixedSelector hrsv hop h rfl rfl (zero_append_extractLsb' (m := 29))
    case h_2 hop => exact encode_of_temperatureSelector hrsv hop h (fun _ => rfl) (fun _ => rfl) noOperand
    case h_3 hop => exact encode_of_temperatureSelector hrsv hop h (fun _ => rfl) (fun _ => rfl) noOperand
    case h_4 hop => exact encode_of_temperatureSelector hrsv hop h (fun _ => rfl) (fun _ => rfl) (fun _ => rfl)
    case h_5 hop => exact encode_of_temperatureSelector hrsv hop h (fun _ => rfl) (fun _ => rfl) (fun _ => rfl)
    case h_6 hop => exact encode_of_fixedSelector hrsv hop h rfl rfl noOperand
    case h_7 hop => exact encode_of_fixedSelector hrsv hop h rfl rfl byteOperand
    case h_8 hop =>
      have bytes : (argField w).extractLsb' 8 8 ++ (argField w).extractLsb' 0 8 = (argField w).extractLsb' 0 16 :=
        BitVec.extractLsb'_append_extractLsb'_eq_extractLsb' rfl
      refine encode_of_fixedSelector hrsv hop h rfl rfl fun harg => ?_
      rw [dectempArg_eq, bytes]
      exact zero_append_extractLsb' (m := 16) harg
    case h_9 hop => exact encode_of_fixedSelector hrsv hop h rfl rfl (fun _ => rfl)
    case h_10 hop => exact encode_of_fixedSelector hrsv hop h rfl rfl byteOperand
    case h_11 hop => exact encode_of_fixedSelector hrsv hop h rfl rfl byteOperand
    case h_12 => cases h

/-- Settles O1, by the operations: each word passes the checks of its own row. -/
theorem encodeThenDecode : Obligations.EncodeThenDecode := fun _ h => decode_encode h

/-- Settles O2, by the rows of R62: each one's checks pin every bit that its operands do not give. -/
theorem decodeThenEncode : Obligations.DecodeThenEncode := fun _ _ h => encode_of_decode h

/-- Settles O4: each word is the one that `encode` gives for its operation. -/
theorem specWordsDecode : Obligations.SpecWordsDecode :=
  ⟨decode_encode (i := .init 7#3) rfl, decode_encode (i := .rdtemp .hyst) rfl,
    decode_encode (i := .wrtemp .hyst 47500#32) rfl, decode_encode (i := .wrcfg 0x60#8) rfl,
    decode_encode (i := .dectemp 0x19#8 0x80#8) rfl, decode_encode (i := .enccfg 0xA6#8) rfl⟩

end Sys2Proof

namespace Sys2Proof.Machine

variable {w : Command}

/-! ### Legal words (O3, O5) -/

theorem rsvField_toNat (w : Command) : (rsvField w).toNat = w.toNat / 2 ^ 38 := by
  have := w.isLt
  simp only [rsvField, BitVec.extractLsb'_toNat, Nat.shiftRight_eq_div_pow]
  omega

theorem opField_toNat (w : Command) : (opField w).toNat = w.toNat / 2 ^ 34 % 16 := by
  simp [opField, BitVec.extractLsb'_toNat, Nat.shiftRight_eq_div_pow]

theorem selField_toNat (w : Command) : (selField w).toNat = w.toNat / 2 ^ 32 % 4 := by
  simp [selField, BitVec.extractLsb'_toNat, Nat.shiftRight_eq_div_pow]

theorem argField_toNat (w : Command) : (argField w).toNat = w.toNat % 2 ^ 32 := by
  simp [argField, BitVec.extractLsb'_toNat]

/-- Clauses (a) to (d) of rule R68 in terms of the fields of rule R60. -/
theorem legalWord_iff_fields (w : Command) :
    legalWord w.toNat ↔ rsvField w = 0#2 ∧ (opField w).toNat ∈ [0, 1, 2, 3, 4, 5, 6, 8, 9, 10, 11]
      ∧ selectorFits (opField w).toNat (selField w).toNat
      ∧ argField w >>> listedBits (opField w).toNat = 0#32 := by
  rw [legalWord, ushiftRight_eq_zero_iff, ← BitVec.toNat_inj, rsvField_toNat, opField_toNat, selField_toNat,
    argField_toNat]
  rfl

/-- The selector and the unused bits that a fixed row asks for, as numbers. -/
theorem fixedSelector_accepts_iff {i : Instr} {want : BitVec 2} {used : Nat} :
    (∃ j, fixedSelector want used w i = .ok j) ↔ (selField w).toNat = want.toNat ∧ argField w >>> used = 0#32 := by
  simp [fixedSelector_eq_ok_iff, BitVec.toNat_inj]

/-- Those that the row of a temperature operation asks for. -/
theorem temperatureSelector_accepts_iff {f : Sel → Instr} {used : Nat} :
    (∃ j, temperatureSelector used w f = .ok j) ↔
      ((selField w).toNat = 0 ∨ (selField w).toNat = 2 ∨ (selField w).toNat = 3) ∧ argField w >>> used = 0#32 := by
  simp [temperatureSelector_eq_ok_iff, Sel.isTemperature_ofCode_iff]

/-- Row by row of R62, the decoder accepts exactly the legal words. -/
theorem decode_ok_iff_legalWord : (∃ i, decode w = .ok i) ↔ legalWord w.toNat := by
  rw [legalWord_iff_fields, decode]
  split
  case isFalse hrsv => simp [hrsv]
  case isTrue hrsv =>
    split
    case h_12 =>
      have reserved : (opField w).toNat ∉ [0, 1, 2, 3, 4, 5, 6, 8, 9, 10, 11] := by
        simp only [List.mem_cons, List.not_mem_nil, or_false]
        tauto
      simp only [reserved, false_and, and_false, reduceCtorEq, exists_false]
    all_goals
      rename_i hop
      rw [hop]
      simp [hrsv, fixedSelector_accepts_iff, temperatureSelector_accepts_iff, selectorFits, listedBits]

theorem decode_error_iff_illegal : (∃ e, decode w = .error e) ↔ ¬ legalWord w.toNat := by
  rw [← decode_ok_iff_legalWord]
  cases decode w <;> simp

/-! ### The row of a word (O3) -/

theorem fitsRow_encode {i : Instr} (h : i.wellFormed = true) : fitsRow i (encode i) = true := by
  cases i with
  | init low => exact Laws.EncodesToItsRow.init low h
  | rdtemp sel => exact Laws.EncodesToItsRow.rdtemp sel h
  | rdtempf sel => exact Laws.EncodesToItsRow.rdtempf sel h
  | wrtemp sel value => exact Laws.EncodesToItsRow.wrtemp sel value h
  | wrtempf sel f => exact Laws.EncodesToItsRow.wrtempf sel f h
  | rdcfg => exact Laws.EncodesToItsRow.rdcfg h
  | wrcfg raw => exact Laws.EncodesToItsRow.wrcfg raw h
  | dectemp b0 b1 => exact Laws.EncodesToItsRow.dectemp b0 b1 h
  | enctemp value => exact Laws.EncodesToItsRow.enctemp value h
  | deccfg raw => exact Laws.EncodesToItsRow.deccfg raw h
  | enccfg packed => exact Laws.EncodesToItsRow.enccfg packed h

/-- The mnemonic of an operation number (R62). -/
def operationName (op : BitVec 4) : String :=
  match op.toNat with
  | 0 => "INIT"
  | 1 => "RDTEMP"
  | 2 => "RDTEMPF"
  | 3 => "WRTEMP"
  | 4 => "WRTEMPF"
  | 5 => "RDCFG"
  | 6 => "WRCFG"
  | 8 => "DECTEMP"
  | 9 => "ENCTEMP"
  | 10 => "DECCFG"
  | _ => "ENCCFG"

theorem mnemonic_eq_operationName (i : Instr) : mnemonic i = operationName (opField (rowMatch i)) := by
  cases i <;> simp only [mnemonic, rowMatch] <;> rfl

/-- Every row fixes the whole operation number. -/
theorem opField_rowMask (i : Instr) : opField (rowMask i) = BitVec.allOnes 4 := by
  cases i <;> simp only [rowMask] <;> rfl

theorem opField_of_fitsRow {i : Instr} (h : fitsRow i w = true) : opField w = opField (rowMatch i) := by
  have masked : opField (w &&& rowMask i) = opField w &&& opField (rowMask i) := BitVec.extractLsb'_and
  rw [← beq_iff_eq.mp h, masked, opField_rowMask, BitVec.and_allOnes]

theorem mnemonic_of_fitsRow {i : Instr} (h : fitsRow i w = true) : mnemonic i = operationName (opField w) := by
  rw [mnemonic_eq_operationName, opField_of_fitsRow h]

/-- Settles O3: a legal word is the word of the operation read, and so fits its row, and its operation number is that of
every row it fits. -/
theorem everyWordIsOneRowOrIllegal : Obligations.EveryWordIsOneRowOrIllegal := by
  intro w
  by_cases legal : legalWord w.toNat
  · obtain ⟨i, hi⟩ := decode_ok_iff_legalWord.mpr legal
    obtain ⟨wf, word⟩ := encode_of_decode hi
    have fits : fitsRow i w = true := word ▸ fitsRow_encode wf
    exact .inl ⟨legal, i, hi, wf, fits, fun j hj => (mnemonic_of_fitsRow hj).trans (mnemonic_of_fitsRow fits).symm⟩
  · exact .inr ⟨legal, decode_error_iff_illegal.mpr legal⟩

/-! ### Illegal commands (O5) -/

/-- Settles O5: the decoder refuses an illegal word, whose only effect is the exception; WRTEMPF's conversion is tested
on a bound handle after the Ambient guard, and also ends in the exception. -/
theorem illegalCommandHasNoEffect : Obligations.IllegalCommandHasNoEffect := by
  refine ⟨fun w => decode_error_iff_illegal, ?_, ?_⟩
  · intro s w rest hr hi illegal
    obtain ⟨e, he⟩ := decode_error_iff_illegal.mpr illegal
    exact ⟨_, step_illegal hr hi he, onlyAnswers_raise .illegalCommand _⟩
  · intro s sel f hb hsel hf
    exact ⟨_, exec_wrtempf_invalid hsel hb hf, onlyAnswersAndScratch_raise .illegalCommand s⟩

/-! ### The float forms (O24) -/

variable {s t : State} {sel : Sel}

/-- `t` and `u` differ at most in the form of an OK response: the decoded temperature as an `int32` in `t` and as a
binary32 number in `u` (R80). -/
def SameButForm (s t u : State) : Prop :=
  u = { t with responses := u.responses, pending := u.pending }
    ∧ ((t.responses = u.responses ∧ t.pending = u.pending ∧ ∀ r, t.responses ≠ s.responses ++ [okResponse r])
      ∨ ∃ b0 b1, givesResponse s t (okResponse (toInt32 (decTemp b0 b1)))
          ∧ givesResponse s u (okResponse (v2f (decTemp b0 b1))))

theorem SameButForm.raise (e : Exception) (h : t.responses = s.responses) :
    SameButForm s (raise e t) (raise e t) := by
  refine ⟨rfl, .inl ⟨rfl, rfl, fun r hr => ?_⟩⟩
  rw [raise_responses, h] at hr
  cases e <;> simp [okResponse, exceptionKind] at hr

theorem SameButForm.respondOk (b0 b1 : Byte) (h : t.responses = s.responses) :
    SameButForm s (respondOk (toInt32 (decTemp b0 b1)) t) (respondOk (v2f (decTemp b0 b1)) t) :=
  ⟨rfl, .inr ⟨b0, b1, ⟨by rw [respondOk_responses, h]; rfl, rfl⟩, ⟨by rw [respondOk_responses, h]; rfl, rfl⟩⟩⟩

theorem SameButForm.waiting (h : t.responses = s.responses) :
    SameButForm s { t with busy := true } { t with busy := true } :=
  ⟨rfl, .inl ⟨rfl, rfl, fun r hr => by simp [h] at hr⟩⟩

theorem memRead_responses (sel : Sel) (n : Nat) (s : State) : (memRead sel n s).1.responses = s.responses := by
  unfold memRead
  dsimp only
  split
  · rfl
  · split
    · split
      · rfl
      · split <;> rfl
    · rfl

/-- The two forms conclude the same register read. -/
theorem SameButForm.conclude {r : State × Access (Byte × Byte)} (h : r.1.responses = s.responses) :
    SameButForm s (conclude r fun d => toInt32 (decTemp d.1 d.2)) (conclude r fun d => v2f (decTemp d.1 d.2)) := by
  match r, h with
  | (t, .done d), h => exact .respondOk d.1 d.2 h
  | (t, .failed st), h => exact .raise (.transportFailure st) h
  | (t, .waiting), h => exact .waiting h

theorem exec_rdtempf_sameButForm (h : exec (.rdtemp sel) s = .next t) :
    ∃ u, exec (.rdtempf sel) s = .next u ∧ SameButForm s t u := by
  by_cases hsel : sel = .config
  · subst hsel
    cases h
    exact ⟨_, rfl, .raise .illegalCommand rfl⟩
  have legal := isTemperature_of_ne hsel
  cases hb : s.handle.bound with
  | false =>
    obtain ⟨read, readf, _, _⟩ := exec_temperature_unbound legal hb 0 0
    cases read.symm.trans h
    exact ⟨_, readf, .raise .unboundDevice rfl⟩
  | true =>
    cases (exec_rdtemp_bound legal hb).symm.trans h
    exact ⟨_, exec_rdtempf_bound legal hb, .conclude (memRead_responses sel 2 s)⟩

/-- Settles O24: WRTEMPF of a convertible operand is WRTEMP by definition; RDTEMPF passes the same checks as RDTEMP and
concludes the same read. -/
theorem floatFormsDelegate : Obligations.FloatFormsDelegate :=
  ⟨fun _ _ _ _ hf => exec_wrtempf_converted hf, fun _ _ _ h => exec_rdtempf_sameButForm h⟩

/-! ### The transactions of an operation (O28) -/

theorem registerWidth_le_two (sel : Sel) : registerWidth sel ≤ 2 := by cases sel <;> decide

theorem length_of_answerData {n : Nat} {x : Answer} {st : Word} {bytes : List Byte} (hn : n ≤ 2)
    (h : answerData n x = some (st, bytes)) : bytes.length = n := by
  cases x with
  | silent => cases h
  | answered st d0 d1 =>
    cases h
    simpa using hn

theorem readTrace_select {a : BusAddr} {n : Nat} {st : Option Word} (hst : st ≠ some 0#32) :
    readTrace a sel n [.write a [selectByte sel] st] := .inl ⟨st, hst, rfl⟩

theorem readTrace_both {a : BusAddr} {n : Nat} (hn : n ≤ 2) (x : Answer) :
    readTrace a sel n [.write a [selectByte sel] (some 0#32), .read a n (answerData n x)] :=
  .inr ⟨_, fun _ _ => length_of_answerData hn, rfl⟩

/-- A register read adds the select write, and the read if the select was answered 0 (R37, R70). -/
theorem conclude_memRead_trace {n : Nat} (hn : n ≤ 2) (sel : Sel) (f : Byte × Byte → Word) (s : State) :
    ∃ new, (conclude (memRead sel n s) f).trace = s.trace ++ new ∧ readTrace s.handle.addr sel n new := by
  rcases conclude_memRead_cases sel n f s with ⟨h1, h⟩ | ⟨st, x, y, hst, h1, h⟩ | ⟨x, y, h1, h2, h⟩
    | ⟨x, y, st, d0, d1, hst, h1, h2, h⟩ | ⟨x, y, d0, d1, h1, h2, h⟩ <;> rw [h]
  · exact ⟨_, by simp [traceEntry_select, h1, answerStatus], readTrace_select (st := none) (by simp)⟩
  · exact ⟨_, by simp [traceEntry_select, h1, answerStatus], readTrace_select (st := some st) (by simpa using hst)⟩
  · exact ⟨_, by simp [traceEntry_select, environmentAnswer_transact_putScratch, h1, h2, answerStatus],
      readTrace_both hn .silent⟩
  · exact ⟨_, by simp [traceEntry_select, h1, h2, answerStatus], readTrace_both hn (.answered st d0 d1)⟩
  · exact ⟨_, by simp [traceEntry_select, h1, h2, answerStatus], readTrace_both hn (.answered 0#32 d0 d1)⟩

/-- A register write adds its one transaction (R38, R70). -/
theorem conclude_memWrite_trace {v : List Byte} (hv : v.length = 1 ∨ v.length = 2) (sel : Sel) (g : Unit → Word)
    (s : State) : ∃ st, (conclude (memWrite sel v s) g).trace
      = s.trace ++ [.write s.handle.addr (selectByte sel :: v) st] := by
  rcases conclude_memWrite_cases sel v g s hv with ⟨_, h⟩ | ⟨_, _, _, _, _, h⟩ | ⟨_, _, _, h⟩ <;>
    exact ⟨_, by rw [h]; rfl⟩

/-- Settles O28, by the forms in which an operation ends. -/
theorem transactionsOfAnOperation : Obligations.TransactionsOfAnOperation := by
  intro i s t h
  rcases exec_cases i s with ⟨e, s', _, hs, h1⟩ | ⟨r, s', hs, h1⟩ | ⟨low, _, h1⟩ | ⟨_, sel, f, hi, h1⟩
    | ⟨_, sel, v, hi, h1⟩ <;> cases h1.symm.trans h
  · refine ⟨[], ?_, .inl rfl⟩
    rcases hs with rfl | rfl <;> simp
  · refine ⟨[], ?_, .inl rfl⟩
    rcases hs with rfl | rfl <;> simp
  · exact ⟨[], by simp, .inl rfl⟩
  · obtain ⟨new, trace, row⟩ := conclude_memRead_trace (registerWidth_le_two sel) sel f s
    refine ⟨new, trace, .inr ?_⟩
    rcases hi with ⟨hsel, rfl | rfl⟩ | ⟨rfl, rfl⟩
    · exact ⟨hsel, registerWidth_of_ne hsel ▸ row⟩
    · exact ⟨hsel, registerWidth_of_ne hsel ▸ row⟩
    · exact row
  · have hv : v.length = 1 ∨ v.length = 2 := by
      rcases hi with ⟨_, _, rfl, _⟩ | ⟨_, _, rfl, _⟩
      · exact .inr rfl
      · exact .inl rfl
    obtain ⟨st, trace⟩ := conclude_memWrite_trace hv sel (fun _ => 0#32) s
    refine ⟨_, trace, .inr ?_⟩
    rcases hi with ⟨hsel, value, rfl, ⟨w, rfl, rfl⟩ | ⟨f, w, rfl, hf, rfl⟩⟩ | ⟨rfl, raw, rfl, rfl⟩
    · exact ⟨hsel, st, rfl⟩
    · exact ⟨w, hf, hsel, st, rfl⟩
    · exact ⟨st, rfl⟩

/-! ### Enumerations and the response word (O50, O51) -/

theorem resBits_injective : Function.Injective resBits := fun _ _ h => BitVec.eq_of_toNat_eq (Nat.add_left_cancel h)

theorem faultCount_injective : Function.Injective faultCount := by
  have : ∀ c d : BitVec 2, faultCount c = faultCount d → c = d := by decide
  exact fun c d => this c d

/-- Settles O50: the values of R74 and R75, and that they differ. -/
theorem enumerationsAreInjective : Obligations.EnumerationsAreInjective :=
  ⟨fun _ => rfl, by decide, resBits_injective, faultCount_injective⟩

theorem responseWord_kind (r : Response) : (responseWord r).extractLsb' 64 2 = kindCode r.kind := by
  rw [responseWord, BitVec.extractLsb'_append_eq_of_le (by decide)]
  exact BitVec.extractLsb'_append_eq_left

theorem responseWord_code (r : Response) : (responseWord r).extractLsb' 32 32 = r.code := by
  rw [responseWord, BitVec.extractLsb'_append_eq_of_le (by decide)]
  exact BitVec.extractLsb'_append_eq_right

theorem responseWord_result (r : Response) : (responseWord r).extractLsb' 0 32 = r.result :=
  BitVec.extractLsb'_append_eq_right

/-- Settles O51, field by field. -/
theorem responseWordLayout : Obligations.ResponseWordLayout := by
  refine fun r => ⟨responseWord_code r, responseWord_result r, ?_⟩
  rw [responseWord_kind]
  cases r.kind <;> rfl

end Sys2Proof.Machine

/-! The statements about the temperature codec and the float conversions. Every decoded value is a signed whole number
of sixteenths of a degree, which is what the conversions keep. -/

namespace Sys2Proof.Machine

/-! ### Bits of a byte as arithmetic -/

theorem getLsbD_iff (b : Byte) (i : Nat) : b.getLsbD i = true ↔ b.toNat / 2 ^ i % 2 = 1 := by
  rw [BitVec.getLsbD, Nat.testBit_eq_decide_div_mod_eq, decide_eq_true_iff]

theorem highNibble_toNat (b : Byte) : (b.extractLsb' 4 4).toNat = b.toNat / 16 := by
  rw [BitVec.extractLsb'_toNat, Nat.shiftRight_eq_div_pow]
  omega

theorem and_highNibble_toNat (b : Byte) : (b &&& 0xF0#8).toNat = b.toNat / 16 * 16 := by
  rw [show 0xF0#8 = BitVec.allOnes 8 <<< 4 by decide, ← BitVec.shiftLeft_ushiftRight]
  simp only [BitVec.toNat_shiftLeft, BitVec.toNat_ushiftRight, Nat.shiftRight_eq_div_pow, Nat.shiftLeft_eq]
  omega

/-- The bits outside `FRACMASK(c)` are the low `7 - c`. -/
theorem and_not_fracMask_toNat (b : Byte) (c : BitVec 2) :
    (b &&& ~~~(fracMask c)).toNat = b.toNat % 2 ^ (7 - c.toNat) := by
  have mask : ∀ c : BitVec 2, (~~~(fracMask c)).toNat = 2 ^ (7 - c.toNat) - 1 := by decide
  rw [BitVec.toNat_and, mask, Nat.and_two_pow_sub_one_eq_mod]

/-! ### The decoded value in sixteenths of a degree (40_codec_temperature.md rule R90) -/

/-- The magnitude of a byte pair in sixteenths of a degree: 7 integer bits and the high nibble of byte 1. -/
def sixteenths (b0 b1 : Byte) : Nat := 16 * (b0.toNat % 128) + b1.toNat / 16

theorem sixteenths_lt (b0 b1 : Byte) : sixteenths b0 b1 < 2048 := by
  have := b1.isLt
  unfold sixteenths
  omega

theorem fractionValue_eq (b1 : Byte) : fractionValue b1 = 625 * (b1.toNat / 16) := by
  have := b1.isLt
  simp only [fractionValue, getLsbD_iff, Config.weightHalf, Config.weightQuarter, Config.weightEighth,
    Config.weightSixteenth]
  split_ifs <;> omega

theorem decTempMagnitude_eq (b0 b1 : Byte) : decTempMagnitude b0 b1 = 625 * sixteenths b0 b1 := by
  have integer : (b0.extractLsb' 0 7).toNat = b0.toNat % 128 := by simp [BitVec.extractLsb'_toNat]
  rw [decTempMagnitude, fractionValue_eq, integer, Config.scale, sixteenths]
  omega

theorem decTemp_eq (b0 b1 : Byte) :
    decTemp b0 b1 = if 128 ≤ b0.toNat then -(625 * sixteenths b0 b1 : Int) else 625 * sixteenths b0 b1 := by
  have := b0.isLt
  have sign : b0.getLsbD 7 = true ↔ 128 ≤ b0.toNat := by rw [getLsbD_iff]; omega
  simp only [decTemp, decTempMagnitude_eq, sign]
  push_cast
  rfl

theorem decTemp_natAbs (b0 b1 : Byte) : (decTemp b0 b1).natAbs = 625 * sixteenths b0 b1 := by
  rw [decTemp_eq]
  split_ifs <;> omega

/-! ### DECTEMP (O33) -/

theorem exec_dectemp (b0 b1 : Byte) (s : State) :
    exec (.dectemp b0 b1) s = .next (withResponse s (okResponse (toInt32 (decTemp b0 b1)))) := rfl

/-- Settles O33: the weights of R90 are the bits of the high nibble in sixteenths. -/
theorem dectempAnswers : Obligations.DectempAnswers := by
  refine ⟨fun b0 b1 => rfl, fun s b0 b1 => ?_⟩
  have := b1.isLt
  rw [exec_dectemp, toInt32, decTemp_eq, sixteenths]
  congr 5
  split_ifs <;> omega

/-! ### The two bytes of an encoded value (40_codec_temperature.md rules R94 and R95; O34) -/

theorem encTempByte0_toNat (value : Int) : ((encTempByte0 value).toNat : Int) = value.tdiv 10000 % 256 := by
  simp only [encTempByte0, low8, quot, Config.scale, BitVec.toNat_ofInt]
  exact Int.toNat_of_nonneg (Int.emod_nonneg _ (by decide))

theorem encTempByte1_eq (value : Int) :
    encTempByte1 value = if 5000 ≤ value - value.tdiv 10000 * 10000 then 0x80#8 else 0x00#8 := rfl

theorem exec_enctemp (value : Word) (s : State) : exec (.enctemp value) s =
    .next (withResponse s (okResponse (0#16 ++ encTempByte0 value.toInt ++ encTempByte1 value.toInt))) := by
  have word (x y : Byte) : (x ++ y).setWidth 32 = (0#16 ++ x ++ y : Word) := by
    rw [dectempArg_eq, BitVec.setWidth_eq_append (by decide)]
    rfl
  rw [← word]
  rfl

/-- Settles O34, by the two bytes' equations. -/
theorem enctempAnswers : Obligations.EnctempAnswers :=
  ⟨fun _ => rfl, fun s value => ⟨_, _, exec_enctemp value s, encTempByte0_toNat value.toInt,
    encTempByte1_eq value.toInt⟩⟩

/-! ### What the decoder's values are (O35, O36, O37, O41) -/

/-- Settles O35: a magnitude is less than 2048 sixteenths. -/
theorem decodedRange : Obligations.DecodedRange := by
  refine ⟨fun b0 b1 => ?_, by decide, by decide⟩
  have abs := decTemp_natAbs b0 b1
  have lt := sixteenths_lt b0 b1
  refine ⟨by omega, by omega, by omega, ?_, ?_, by rw [decTempMagnitude_eq]; omega⟩
  · exact BitVec.toInt_ofInt_eq_self (by decide) (by omega) (by omega)
  · exact BitVec.toInt_ofInt_eq_self (by decide) (by omega) (by omega)

theorem decTemp_eq_zero_iff (b0 b1 : Byte) : decTemp b0 b1 = 0 ↔ sixteenths b0 b1 = 0 := by
  rw [← Int.natAbs_eq_zero, decTemp_natAbs]
  omega

/-- Settles O36: a pair decodes to 0 exactly where it has no sixteenths, and the sign bit is none. -/
theorem negativeZeroDecodesToZero : Obligations.NegativeZeroDecodesToZero := by
  refine ⟨fun b0 b1 => ?_, fun b1 fraction => ?_, fun injective => ?_, by decide⟩
  · have := b0.isLt
    simp only [decTemp_eq_zero_iff, sixteenths, ← BitVec.toNat_inj, highNibble_toNat, BitVec.toNat_ofNat]
    omega
  · rw [ne_eq, ← BitVec.toNat_inj, highNibble_toNat, BitVec.toNat_ofNat] at fraction
    have magnitude : 0 < sixteenths 0x80#8 b1 := by
      unfold sixteenths
      omega
    rw [decTemp_eq, if_pos (by decide)]
    omega
  · exact absurd (@injective (0x00#8, 0x00#8) (0x80#8, 0x00#8) (by decide)) (by decide)

theorem decTempMagnitude_eq_iff (b0 b1 c1 : Byte) :
    decTempMagnitude b0 b1 = decTempMagnitude b0 c1 ↔ b1.toNat / 16 = c1.toNat / 16 := by
  simp only [decTempMagnitude_eq, sixteenths]
  omega

/-- Settles O37: byte 1 enters the value through its high nibble alone, and the whole of it. -/
theorem decodeIgnoresLowNibble : Obligations.DecodeIgnoresLowNibble := by
  refine ⟨fun b0 b1 => ?_, fun b0 b1 c1 => ?_⟩
  · simp only [decTemp_eq, sixteenths, and_highNibble_toNat]
    rw [Nat.mul_div_cancel _ (by decide)]
  · rw [decTempMagnitude_eq_iff, ← BitVec.toNat_inj, and_highNibble_toNat, and_highNibble_toNat]
    omega

/-- Settles O41: the step is `2^(3-c)` sixteenths, and the bits inside the mask are multiples of it. -/
theorem resolutionGivesTheStep : Obligations.ResolutionGivesTheStep := by
  refine ⟨by decide, fun c b0 b1 h => ?_⟩
  rw [← BitVec.toNat_inj, and_not_fracMask_toNat] at h
  have step : 10000 / 2 ^ (c.toNat + 1) ∣ 625 * sixteenths b0 b1 := by
    have := c.isLt
    unfold sixteenths
    generalize c.toNat = n at *
    interval_cases n <;> simp only [BitVec.toNat_ofNat] at h <;> omega
  rwa [Int.natCast_dvd, decTemp_natAbs]

/-! ### What the encoder makes of a value (O38, O39, O40) -/

theorem tdiv_natCast (n : Nat) : (n : Int).tdiv 10000 = (n / 10000 : Nat) := rfl

theorem tdiv_neg_natCast (n : Nat) : (-(n : Int)).tdiv 10000 = -((n / 10000 : Nat) : Int) := Int.neg_tdiv ..

theorem encTempByte0_natCast (n : Nat) : (encTempByte0 n).toNat = n / 10000 % 256 := by
  have := encTempByte0_toNat n
  rw [tdiv_natCast] at this
  omega

theorem encTempByte1_natCast (n : Nat) :
    encTempByte1 n = if n % 10000 < 5000 then 0x00#8 else 0x80#8 := by
  have flag : 5000 ≤ (n : Int) - (n / 10000 : Nat) * 10000 ↔ ¬ n % 10000 < 5000 := by omega
  rw [encTempByte1_eq, tdiv_natCast, if_congr flag rfl rfl, ite_not]

theorem encTempByte1_natCast_toNat (n : Nat) : (encTempByte1 n).toNat = 128 * (n % 10000 / 5000) := by
  rw [encTempByte1_natCast]
  split_ifs <;> simp only [BitVec.toNat_ofNat] <;> omega

theorem encTempByte0_neg (n : Nat) : ((encTempByte0 (-n)).toNat : Int) = -((n / 10000 : Nat) : Int) % 256 := by
  rw [encTempByte0_toNat, tdiv_neg_natCast]

theorem encTempByte1_neg (n : Nat) : encTempByte1 (-n) = 0x00#8 := by
  rw [encTempByte1_eq, tdiv_neg_natCast, if_neg (by omega)]

/-- Settles O38, by the truncation of the quotient toward zero. -/
theorem negativeValuesEncodeUnsigned : Obligations.NegativeValuesEncodeUnsigned := by
  refine ⟨fun value neg => ?_, fun value low neg => ?_, by decide⟩
  · obtain ⟨n, rfl⟩ := Int.exists_eq_neg_ofNat neg.le
    rw [rem, quot, tdiv_neg_natCast, encTempByte0_neg, neg_neg]
    exact ⟨by omega, by omega, encTempByte1_neg n, by omega⟩
  · obtain ⟨n, rfl⟩ := Int.exists_eq_neg_ofNat (neg.trans (by decide))
    refine Prod.ext (BitVec.eq_of_toNat_eq ?_) (encTempByte1_neg n)
    have := encTempByte0_neg n
    simp only [encTemp, BitVec.toNat_ofNat]
    omega

/-- Settles O39, by the two bytes of a natural number. -/
theorem largeValuesWrapAndFractionsAreCut : Obligations.LargeValuesWrapAndFractionsAreCut := by
  refine ⟨fun value => ⟨encTempByte0_natCast value, encTempByte1_natCast value⟩, fun value low high => ?_,
    fun value => Prod.ext (BitVec.eq_of_toNat_eq ?_) ?_⟩
  · rw [getLsbD_iff, encTempByte0_natCast]
    omega
  · simp only [encTemp, encTempByte0_natCast]
    omega
  · have remainder : (value + 2560000) % 10000 = value % 10000 := by omega
    simp only [encTemp, encTempByte1_natCast, remainder]

theorem encTemp_decTemp_iff (b0 b1 : Byte) : encTemp (decTemp b0 b1) = (b0, b1) ↔
    (b0.toNat ≤ 127 ∧ (b1 = 0x00#8 ∨ b1 = 0x80#8)) ∨ (b0 = 0xC0#8 ∧ b1 = 0x00#8) := by
  have := b0.isLt
  have := b1.isLt
  simp only [Prod.ext_iff, encTemp, ← BitVec.toNat_inj, BitVec.toNat_ofNat]
  by_cases negative : 128 ≤ b0.toNat
  · have value : decTemp b0 b1 = -(625 * sixteenths b0 b1 : Nat) := by rw [decTemp_eq, if_pos negative]; rfl
    have := encTempByte0_neg (625 * sixteenths b0 b1)
    rw [value, encTempByte1_neg, BitVec.toNat_ofNat]
    unfold sixteenths at *
    omega
  · have value : decTemp b0 b1 = (625 * sixteenths b0 b1 : Nat) := by rw [decTemp_eq, if_neg negative]; rfl
    rw [value, encTempByte0_natCast, encTempByte1_natCast_toNat, sixteenths]
    omega

/-- From 0 on exactly the half degrees below 128 degrees come back. -/
theorem decTemp_encTemp_natCast_iff (n : Nat) :
    decTemp (encTemp n).1 (encTemp n).2 = n ↔ n < 1280000 ∧ n % 5000 = 0 := by
  simp only [encTemp, decTemp_eq, sixteenths, encTempByte0_natCast, encTempByte1_natCast_toNat]
  split_ifs <;> omega

/-- Of the negative values only -64 degrees comes back: its quotient's low byte is 0xC0 in both readings. -/
theorem decTemp_encTemp_neg_iff {n : Nat} (hn : 0 < n) :
    decTemp (encTemp (-n)).1 (encTemp (-n)).2 = -n ↔ n = 640000 := by
  have := encTempByte0_neg n
  simp only [encTemp, decTemp_eq, sixteenths, encTempByte1_neg, BitVec.toNat_ofNat]
  split_ifs <;> omega

/-- Settles O40, the second law by the sign of the value. -/
theorem roundTripDomains : Obligations.RoundTripDomains := by
  refine ⟨encTemp_decTemp_iff, fun x => ?_⟩
  rcases le_or_gt 0 x with nonneg | neg
  · lift x to Nat using nonneg
    rw [decTemp_encTemp_natCast_iff]
    constructor
    · intro h
      exact .inl ⟨x / 10000, x % 10000 / 5000, by omega⟩
    · rintro (⟨m, h, hm, hh, hx⟩ | hx) <;> omega
  · obtain ⟨n, rfl⟩ := Int.exists_eq_neg_ofNat neg.le
    rw [decTemp_encTemp_neg_iff (by omega)]
    constructor
    · rintro rfl
      exact .inr rfl
    · rintro (⟨m, h, hm, hh, hx⟩ | hx) <;> omega

variable {f : Word} {m k : Nat}

/-! ### What a packed magnitude stands for -/

/-- A magnitude of 24 significant bits can be written with its first significant bit in place, or without a weight. -/
theorem exists_normalized (k : Nat) (hm : m < 2 ^ 24) :
    ∃ m' k', m' * 2 ^ k' = m * 2 ^ k ∧ m' < 2 ^ 24 ∧ k' ≤ k ∧ (k' = 0 ∨ 2 ^ 23 ≤ m') := by
  induction k generalizing m with
  | zero => exact ⟨m, 0, rfl, hm, le_rfl, .inl rfl⟩
  | succ k ih =>
    by_cases normal : 2 ^ 23 ≤ m
    · exact ⟨m, k + 1, rfl, hm, le_rfl, .inr normal⟩
    · obtain ⟨m', k', value, bits, weight, form⟩ := ih (m := m * 2) (by omega)
      exact ⟨m', k', by rw [value, pow_succ']; ring, bits, by omega, form⟩

theorem packFloat_significant (n : Bool) (hm : m < 2 ^ 24) (hk : k < 254) :
    floatFinite (packFloat n (m * 2 ^ k)) = true ∧ floatUnits (packFloat n (m * 2 ^ k)) = m * 2 ^ k
      ∧ floatNegative (packFloat n (m * 2 ^ k)) = n := by
  obtain ⟨m', k', value, bits, weight, form⟩ := exists_normalized k hm
  obtain ⟨finite, units, sign, _⟩ := packFloat_exact n m' k' bits (by omega) form
  rw [← value]
  exact ⟨finite, units, sign⟩

/-- From 2^128 on, which is 2^277 units, a magnitude is packed as an infinity. -/
theorem packFloat_infinite (n : Bool) {units : Nat} (h : 2 ^ 277 ≤ units) :
    floatFinite (packFloat n units) = false := by
  have weight : 254 ≤ units.log2 - 23 := by
    have := (Nat.le_log2 (show units ≠ 0 by omega)).mpr h
    omega
  rw [packFloat, if_pos weight]
  cases n <;> decide

theorem weight_lt (hn : k = 0 ∨ 2 ^ 23 ≤ m) (h : m * 2 ^ k < 2 ^ 277) : k < 254 := by
  by_contra hk
  have : 2 ^ 23 * 2 ^ 254 ≤ m * 2 ^ k :=
    Nat.mul_le_mul (hn.resolve_left (by omega)) (Nat.pow_le_pow_right (by decide) (by omega))
  omega

/-- What rounding to 24 significant bits gives is packed as an infinity, or exactly and then with the parity of its last
significant bit. -/
theorem packFloat_rounded (n : Bool) (hm : m ≤ 2 ^ 24) (hn : k = 0 ∨ 2 ^ 23 ≤ m) :
    (floatFinite (packFloat n (m * 2 ^ k)) = false ∧ 2 ^ 277 ≤ m * 2 ^ k)
      ∨ (floatFinite (packFloat n (m * 2 ^ k)) = true ∧ floatUnits (packFloat n (m * 2 ^ k)) = m * 2 ^ k
        ∧ floatNegative (packFloat n (m * 2 ^ k)) = n
        ∧ (m % 2 = 0 → floatFraction (packFloat n (m * 2 ^ k)) % 2 = 0)) := by
  by_cases large : 2 ^ 277 ≤ m * 2 ^ k
  · exact .inl ⟨packFloat_infinite n large, large⟩
  · refine .inr ?_
    rcases hm.lt_or_eq with hm | rfl
    · obtain ⟨finite, units, sign, fraction⟩ := packFloat_exact n m k hm (weight_lt hn (by omega)) hn
      exact ⟨finite, units, sign, by omega⟩
    · have carry : 2 ^ 24 * 2 ^ k = 2 ^ 23 * 2 ^ (k + 1) := by ring
      rw [carry] at large ⊢
      have hk : k + 1 < 254 := weight_lt (.inr le_rfl) (by omega)
      obtain ⟨finite, units, sign, fraction⟩ := packFloat_exact n (2 ^ 23) (k + 1) (by decide) hk (.inr le_rfl)
      exact ⟨finite, units, sign, fun _ => by omega⟩

/-! ### Rounding -/

theorem roundNearestEven_mul {b : Nat} (a : Nat) (hb : 0 < b) : roundNearestEven (a * b) b = a := by
  rw [roundNearestEven, Nat.mul_mod_left, if_pos (by omega), Nat.mul_div_cancel _ hb]

/-- A quotient that has 24 significant bits is not changed by rounding to these. -/
theorem roundUnits_exact {b : Nat} (hb : 0 < b) (hm : m < 2 ^ 24) (k : Nat) :
    roundUnits (m * 2 ^ k * b) b = m * 2 ^ k := by
  obtain ⟨m', k', value, bits, -, form⟩ := exists_normalized k hm
  rw [← value]
  have weight : (m' * 2 ^ k').log2 - 23 ≤ k' := by
    by_cases h0 : m' * 2 ^ k' = 0
    · simp [h0]
    · have := (Nat.log2_lt h0).mpr (show m' * 2 ^ k' < 2 ^ (24 + k') by
        rw [pow_add]; exact Nat.mul_lt_mul_of_pos_right bits (by positivity))
      omega
  obtain ⟨d, hd⟩ := Nat.exists_eq_add_of_le weight
  rw [roundUnits, Nat.mul_div_cancel _ hb]
  generalize (m' * 2 ^ k').log2 - 23 = j at *
  rw [hd, show m' * 2 ^ (j + d) * b = m' * 2 ^ d * (b * 2 ^ j) by ring, roundNearestEven_mul _ (by positivity)]
  ring

/-- A magnitude is rounded to below `2^24` units of a weight exactly where it is below the midpoint of that bound and the
last number of 24 significant bits under it: the midpoint is tied to the bound, which is even. -/
theorem roundUnits_lt_iff (a e : Nat) : roundUnits a 1 < 2 ^ 24 * 2 ^ e ↔ 2 * a + 2 ^ e < 2 * (2 ^ 24 * 2 ^ e) := by
  obtain ⟨m, k, rounded, bits, normal, range, near, even⟩ := roundUnits_one a
  rw [rounded]
  have small : m * 2 ^ k ≤ 2 ^ 24 * 2 ^ k := Nat.mul_le_mul_right _ bits
  have pos : 0 < 2 ^ e := by positivity
  rcases lt_trichotomy k e with lower | rfl | upper
  · have scale : 2 * 2 ^ k ≤ 2 ^ e := by
      rw [← pow_succ']; exact Nat.pow_le_pow_right (by decide) lower
    rcases range with ⟨rfl, rfl, _⟩ | _ <;> omega
  · rcases range with ⟨rfl, rfl, _⟩ | _
    · omega
    · generalize 2 ^ k = r at *
      rcases (show m = 2 ^ 24 ∨ m = 2 ^ 24 - 1 ∨ m + 2 ≤ 2 ^ 24 by omega) with rfl | rfl | below
      · omega
      · omega
      · have : (m + 2) * r ≤ 2 ^ 24 * r := Nat.mul_le_mul_right _ below
        rw [add_mul] at this
        omega
  · have scale : 2 * 2 ^ e ≤ 2 ^ k := by
      rw [← pow_succ']; exact Nat.pow_le_pow_right (by decide) upper
    have large : 2 ^ 23 * 2 ^ k ≤ m * 2 ^ k := Nat.mul_le_mul_right _ (normal.resolve_left (by omega))
    omega

/-! ### `F2V` in terms of the exact product (40_codec_temperature.md rule R101) -/

theorem truncateUnits_of_le (n : Bool) {units : Nat} (h : 2 ^ 31 * 2 ^ 149 ≤ units) : truncateUnits n units = none :=
  if_pos h

theorem truncateUnits_of_lt (n : Bool) {units : Nat} (h : units < 2 ^ 31 * 2 ^ 149) :
    truncateUnits n units = some (truncated n units) := if_neg (by omega)

theorem truncated_mul (n : Bool) (v : Nat) :
    truncated n (v * 2 ^ 149) = BitVec.ofInt 32 (if n then -(v : Int) else v) := by
  rw [truncated, Nat.mul_div_cancel _ (by positivity)]

theorem f2vExact_eq (hf : floatFinite f = true) :
    f2vExact f = truncateUnits (floatNegative f) (floatUnits f * 10000) := if_pos hf

theorem scaledProduct_eq (hf : floatFinite f = true) :
    scaledProduct f = packFloat (floatNegative f) (roundUnits (floatUnits f * 10000) 1) := if_pos hf

theorem f2vRounded_finite (h : floatFinite (scaledProduct f) = true) :
    f2vRounded f = truncateUnits (floatNegative (scaledProduct f)) (floatUnits (scaledProduct f)) := if_pos h

theorem f2vRounded_infinite (h : floatFinite (scaledProduct f) = false) : f2vRounded f = none :=
  if_neg (by simp [h])

/-- The product of a finite operand is an infinity from 2^128 on, else the binary32 number nearest to it. -/
theorem scaledProduct_cases (hf : floatFinite f = true) :
    (floatFinite (scaledProduct f) = false ∧ 2 ^ 277 ≤ roundUnits (floatUnits f * 10000) 1)
      ∨ (floatUnits (scaledProduct f) = roundUnits (floatUnits f * 10000) 1
        ∧ floatNegative (scaledProduct f) = floatNegative f
        ∧ isNearestFloat (scaledProduct f) (floatUnits f * 10000)) := by
  obtain ⟨m, k, rounded, bits, normal, range, near, even⟩ := roundUnits_one (floatUnits f * 10000)
  rw [scaledProduct_eq hf, rounded]
  refine (packFloat_rounded (floatNegative f) bits normal).imp_right ?_
  rintro ⟨finite, units, sign, parity⟩
  refine ⟨units, sign, finite, fun q _ => ?_⟩
  obtain ⟨m', k', bits', units'⟩ := floatUnits_form q
  have form : (k = 0 ∧ m = floatUnits f * 10000) ∨ 2 ^ 23 * 2 ^ k ≤ floatUnits f * 10000 :=
    range.imp (fun h => ⟨h.1, h.2.1⟩) And.left
  obtain ⟨nearest, tie⟩ := roundUnits_one_nearest (k' := k') form near even bits'
  rw [floatDistance, floatDistance, units, units']
  exact ⟨nearest, fun same => (tie same).imp_right parity⟩

/-- 2^31 - 64 is the midpoint of the last binary32 number below 2^31 and 2^31. -/
theorem roundUnits_lt_bound_iff (a : Nat) : roundUnits a 1 < 2 ^ 31 * 2 ^ 149 ↔ a < (2 ^ 31 - 64) * 2 ^ 149 := by
  have := roundUnits_lt_iff a 156
  omega

theorem f2vExact_eq_none_iff (hf : floatFinite f = true) :
    f2vExact f = none ↔ 2 ^ 31 * 2 ^ 149 ≤ floatUnits f * 10000 := by
  rw [f2vExact_eq hf]
  refine ⟨fun h => ?_, truncateUnits_of_le _⟩
  by_contra small
  simp [truncateUnits_of_lt _ (not_le.mp small)] at h

theorem f2vRounded_of_le (hf : floatFinite f = true) (h : (2 ^ 31 - 64) * 2 ^ 149 ≤ floatUnits f * 10000) :
    f2vRounded f = none := by
  have bound := mt (roundUnits_lt_bound_iff _).mp (not_lt.mpr h)
  rcases scaledProduct_cases hf with ⟨infinite, _⟩ | ⟨units, _, finite, _⟩
  · exact f2vRounded_infinite infinite
  · rw [f2vRounded_finite finite, truncateUnits_of_le _ (by omega)]

theorem f2vRounded_of_lt (hf : floatFinite f = true) (h : floatUnits f * 10000 < (2 ^ 31 - 64) * 2 ^ 149) :
    isNearestFloat (scaledProduct f) (floatUnits f * 10000) ∧ floatUnits (scaledProduct f) < 2 ^ 31 * 2 ^ 149
      ∧ f2vRounded f = some (truncated (floatNegative f) (floatUnits (scaledProduct f))) := by
  have bound := (roundUnits_lt_bound_iff _).mpr h
  rcases scaledProduct_cases hf with ⟨_, large⟩ | ⟨units, sign, nearest⟩
  · omega
  · have small : floatUnits (scaledProduct f) < 2 ^ 31 * 2 ^ 149 := by omega
    exact ⟨nearest, small, by rw [f2vRounded_finite nearest.1, truncateUnits_of_lt _ small, sign]⟩

/-- Settles O59: the exact product as it stands, the rounded one as the nearest binary32 number. -/
theorem finiteOperandsConvertByTruncation : Obligations.FiniteOperandsConvertByTruncation := by
  intro f hf
  refine ⟨f2vExact_eq_none_iff hf, fun h => ?_, ⟨fun h => ?_, f2vRounded_of_le hf⟩,
    fun h => ⟨_, f2vRounded_of_lt hf h⟩⟩
  · rw [f2vExact_eq hf, truncateUnits_of_lt _ h]
  · by_contra small
    obtain ⟨_, _, converted⟩ := f2vRounded_of_lt hf (not_le.mp small)
    simp [converted] at h

/-! ### Operands that are no number (O45) -/

/-- Settles O45: the product of a NaN or an infinity is the operand, and no truncation takes it. -/
theorem notANumberIsInvalid : Obligations.NotANumberIsInvalid := by
  intro c f hc ones
  have notFinite : floatFinite f = false := by
    rw [floatFinite, floatExponent, ones]
    rfl
  cases c with
  | roundedProduct =>
    have product : scaledProduct f = f := if_neg (by simp [notFinite])
    exact f2vRounded_infinite (by rw [product, notFinite])
  | exactProduct => exact if_neg (by simp [notFinite])
  | replaced => exact absurd rfl hc

/-! ### Products that are integers, and the round trip (O42, O43, O44) -/

/-- Settles O43: the product has 24 significant bits, so that rounding leaves it. -/
theorem floatWritesAgreeOnExactProducts : Obligations.FloatWritesAgreeOnExactProducts := by
  intro f n hf product small
  have bound : n * 2 ^ 149 < 2 ^ 31 * 2 ^ 149 :=
    Nat.mul_lt_mul_of_pos_right (small.trans (by decide)) (by positivity)
  have unrounded : roundUnits (n * 2 ^ 149) 1 = n * 2 ^ 149 := by
    simpa using roundUnits_exact (b := 1) (by decide) small 149
  obtain ⟨finite, units, sign⟩ := packFloat_significant (floatNegative f) small (k := 149) (by decide)
  have rounded : scaledProduct f = packFloat (floatNegative f) (n * 2 ^ 149) := by
    rw [scaledProduct_eq hf, product, unrounded]
  rw [← rounded] at finite units sign
  rw [f2vRounded_finite finite, units, sign, f2vExact_eq hf, product, truncateUnits_of_lt _ bound, truncated_mul]
  exact ⟨rfl, rfl⟩

/-- Settles O42: a sixteenth of a degree is 2^145 units, and a magnitude has at most 11 bits of these. -/
theorem floatReadIsExact : Obligations.FloatReadIsExact := by
  intro b0 b1
  have lt := sixteenths_lt b0 b1
  have quotient : (decTemp b0 b1).natAbs * 2 ^ 149 = sixteenths b0 b1 * 2 ^ 145 * 10000 := by
    rw [decTemp_natAbs]
    ring
  have bits : sixteenths b0 b1 < 2 ^ 24 := by omega
  obtain ⟨finite, units, sign⟩ := packFloat_significant (decide (decTemp b0 b1 < 0)) bits (k := 145) (by decide)
  have pattern : v2f (decTemp b0 b1) = packFloat (decide (decTemp b0 b1 < 0)) (sixteenths b0 b1 * 2 ^ 145) := by
    rw [v2f, Config.scale, quotient, roundUnits_exact (by decide) bits]
  rw [pattern, units, sign, quotient, decide_eq_true_iff]
  exact ⟨finite, rfl, Iff.rfl⟩

theorem decTemp_eq_signed {negative : Bool} {b0 b1 : Byte} (sign : negative = true ↔ decTemp b0 b1 < 0) :
    (if negative then -((decTemp b0 b1).natAbs : Int) else (decTemp b0 b1).natAbs) = decTemp b0 b1 := by
  rw [if_congr sign rfl rfl]
  split_ifs <;> omega

/-- Settles O44: the float times 10000 is the value, an integer below 2^24, with the value's sign. -/
theorem floatFormsRoundTrip : Obligations.FloatFormsRoundTrip := by
  intro c b0 b1 hc
  have small : (decTemp b0 b1).natAbs < 2 ^ 24 := by
    rw [decTemp_natAbs]
    exact (Nat.mul_lt_mul_of_pos_left (sixteenths_lt b0 b1) (by decide)).trans (by decide)
  obtain ⟨finite, product, sign⟩ := floatReadIsExact b0 b1
  obtain ⟨rounded, truncatedOnly⟩ := floatWritesAgreeOnExactProducts _ _ finite product small
  rw [decTemp_eq_signed sign] at rounded truncatedOnly
  cases c with
  | roundedProduct => exact rounded
  | exactProduct => exact truncatedOnly
  | replaced => exact absurd rfl hc

end Sys2Proof.Machine

/-! The statements about the configuration codec. A member of the record is an adjacent group of the byte's bits, so that
the codec takes a byte apart into groups and puts it together from them. -/

namespace Sys2Proof.Machine

/-! ### Groups of bits -/

theorem ofBool_getLsbD {n : Nat} (x : BitVec n) (i : Nat) : BitVec.ofBool (x.getLsbD i) = x.extractLsb' i 1 := by
  ext j hj
  obtain rfl : j = 0 := by omega
  simp

/-- Disjoint groups of bits add up to the bits of both. -/
theorem and_add_and_of_disjoint {n : Nat} {x m₁ m₂ : BitVec n} (h : m₁ &&& m₂ = 0#n) :
    (x &&& m₁) + (x &&& m₂) = x &&& (m₁ ||| m₂) := by
  have disjoint : (x &&& m₁) &&& (x &&& m₂) = 0#n := by
    rw [← BitVec.and_assoc, BitVec.and_comm x m₁, BitVec.and_assoc m₁, BitVec.and_self, BitVec.and_comm m₁,
      BitVec.and_assoc, h, BitVec.and_zero]
  rw [BitVec.add_eq_or_of_and_eq_zero _ _ disjoint, BitVec.and_or_distrib_left]

/-- The bits of `x` under a mask of `len` ones from bit `i` on are the group at `i`, shifted to its place. -/
theorem and_group {n : Nat} (x : BitVec n) (i len : Nat) :
    x &&& (BitVec.allOnes len).setWidth n <<< i = (x.extractLsb' i len).setWidth n <<< i := by
  ext j hj
  by_cases low : j < i
  · simp [low]
  · have place : i + (j - i) = j := by omega
    simp [low, place, BitVec.getLsbD_eq_getElem hj, Bool.and_comm]

/-! ### The record's members -/

/-- The packed record of a byte, in groups of the byte's bits (R110, R77). -/
theorem packCfg_decCfg (raw : Byte) : packCfg (decCfg raw) =
    raw.extractLsb' 0 1 ++ raw.extractLsb' 1 1 ++ raw.extractLsb' 2 1 ++ raw.extractLsb' 3 2
      ++ raw.extractLsb' 5 2 ++ raw.extractLsb' 7 1 := by
  simp only [packCfg, decCfg, ofBool_getLsbD]

/-- The byte of a packed record, in groups of the packed record's bits (R111, R77). -/
theorem encCfg_unpackCfg (p : Byte) : encCfg (unpackCfg p) =
    p.extractLsb' 0 1 ++ p.extractLsb' 1 2 ++ p.extractLsb' 3 2 ++ p.extractLsb' 5 1
      ++ p.extractLsb' 6 1 ++ p.extractLsb' 7 1 := by
  simp only [encCfg, unpackCfg, ofBool_getLsbD]

/-! ### DECCFG and ENCCFG (O46, O47) -/

theorem ofNat_faultCount : ∀ c : BitVec 2, BitVec.ofNat 3 (faultCount c) =
    if c = 0#2 then 1#3 else if c = 1#2 then 2#3 else if c = 2#2 then 4#3 else 6#3 := by decide

theorem ofNat_resBits (c : BitVec 2) : BitVec.ofNat 4 (resBits c) = 9#4 + c.setWidth 4 := by
  rw [resBits, BitVec.ofNat_add, BitVec.ofNat_toNat]

theorem exec_deccfg (raw : Byte) (s : State) :
    exec (.deccfg raw) s = .next (withResponse s (okResponse (cfgResult raw))) := rfl

/-- Settles O46, by the fields of `CFGRESULT`. -/
theorem deccfgAnswers : Obligations.DeccfgAnswers := by
  refine ⟨fun raw => rfl, fun s raw => ?_⟩
  rw [exec_deccfg, cfgResult, ofNat_faultCount, ofNat_resBits, packCfg_decCfg]
  rfl

theorem exec_enccfg (p : Byte) (s : State) :
    exec (.enccfg p) s = .next (withResponse s (okResponse (0#24 ++ encCfg (unpackCfg p)))) := by
  have word (b : Byte) : b.setWidth 32 = 0#24 ++ b := BitVec.setWidth_eq_append (by decide)
  rw [← word]
  rfl

/-- Settles O47, by the groups of the encoded byte. -/
theorem enccfgAnswers : Obligations.EnccfgAnswers :=
  ⟨fun _ => rfl, fun s p => by rw [exec_enccfg, encCfg_unpackCfg]⟩

/-! ### Round trips (O48) -/

/-- The groups stand next to each other and join to the whole byte. -/
theorem encCfg_decCfg (raw : Byte) : encCfg (decCfg raw) = raw := by
  simp only [encCfg, decCfg, ofBool_getLsbD, BitVec.extractLsb'_append_extractLsb'_eq_extractLsb']
  exact BitVec.extractLsb'_eq_self

/-- A member is found again past the groups to its right. -/
theorem decCfg_encCfg (c : CfgRec) : decCfg (encCfg c) = c := by
  simp (disch := decide) only [encCfg, decCfg, BitVec.getLsbD_append, BitVec.extractLsb'_append_eq_of_le,
    BitVec.extractLsb'_append_eq_of_add_le]
  simp

theorem packCfg_unpackCfg (p : Byte) : packCfg (unpackCfg p) = p := by
  simp only [packCfg, unpackCfg, ofBool_getLsbD, BitVec.extractLsb'_append_extractLsb'_eq_extractLsb']
  exact BitVec.extractLsb'_eq_self

theorem unpackCfg_packCfg (c : CfgRec) : unpackCfg (packCfg c) = c := by
  simp (disch := decide) only [packCfg, unpackCfg, BitVec.getLsbD_append, BitVec.extractLsb'_append_eq_of_le,
    BitVec.extractLsb'_append_eq_of_add_le]
  simp

/-- Settles O48: each function is the other's inverse on both sides. -/
theorem configurationRoundTrips : Obligations.ConfigurationRoundTrips :=
  ⟨encCfg_decCfg, decCfg_encCfg, packCfg_unpackCfg, unpackCfg_packCfg,
    Function.bijective_iff_has_inverse.mpr ⟨encCfg, encCfg_decCfg, decCfg_encCfg⟩,
    Function.bijective_iff_has_inverse.mpr ⟨decCfg, decCfg_encCfg, encCfg_decCfg⟩⟩

/-! ### The members as masked bits (O49) -/

/-- Settles O49: each mask is a group's, and the six masks are disjoint and cover the byte. -/
theorem fieldExtraction : Obligations.FieldExtraction := by
  intro raw
  simp only [decCfg, ofBool_getLsbD]
  have oneShot : raw &&& 0x80#8 = (raw.extractLsb' 7 1).setWidth 8 <<< 7 := and_group raw 7 1
  have resolution : raw &&& 0x60#8 = (raw.extractLsb' 5 2).setWidth 8 <<< 5 := and_group raw 5 2
  have faultQueue : raw &&& 0x18#8 = (raw.extractLsb' 3 2).setWidth 8 <<< 3 := and_group raw 3 2
  have alertPolarity : raw &&& 0x04#8 = (raw.extractLsb' 2 1).setWidth 8 <<< 2 := and_group raw 2 1
  have intMode : raw &&& 0x02#8 = (raw.extractLsb' 1 1).setWidth 8 <<< 1 := and_group raw 1 1
  have shutdown : raw &&& 0x01#8 = (raw.extractLsb' 0 1).setWidth 8 := by simpa using and_group raw 0 1
  refine ⟨oneShot, resolution, faultQueue, alertPolarity, intMode, shutdown, ?_⟩
  rw [← oneShot, ← resolution, ← faultQueue, ← alertPolarity, ← intMode, ← shutdown]
  iterate 5 rw [and_add_and_of_disjoint (by decide)]
  exact BitVec.and_allOnes

end Sys2Proof.Machine

/-! The statements about the bus operations that complete: INIT and the silent write to Ambient without the bus, a
register read whose two transactions are answered 0, and a register write whose one transaction is. -/

namespace Sys2Proof.Machine

variable {s : State} {i : Instr} {sel : Sel}

/-! ### A register access answered 0 completes its operation (20_memory.md rules R37, R38) -/

/-- An operation that is a register read completes when both transactions are answered 0 (R37). -/
theorem exec_completes_of_memRead {n : Nat} {f : Byte × Byte → Word} {x y d0 d1 : Byte}
    (h : exec i s = .next (conclude (memRead sel n s) f))
    (select : environmentAnswer (selectRequest sel s) s = .answered 0#32 x y)
    (data : environmentAnswer (dataRequest n s) (afterSelect sel s) = .answered 0#32 d0 d1) :
    ∃ t, exec i s = .next t ∧ keepsBlock s t ∧ givesResponse s t (okResponse (f (d0, d1)))
      ∧ t.trace = s.trace ++ [.write s.handle.addr [selectByte sel] (some 0#32),
          .read s.handle.addr n (some (0#32, [d0, d1].take n))]
      ∧ t.env = environmentAfter (dataRequest n s) (afterSelect sel s) := by
  rw [conclude_memRead_done select data] at h
  refine ⟨_, h, ⟨⟨rfl, rfl, rfl, rfl⟩, rfl⟩, ⟨rfl, rfl⟩, ?_, rfl⟩
  rw [dataRequest, afterSelect] at data
  simp [traceEntry_select, select, data, answerStatus, answerData]

/-- An operation that is a register write completes when its transaction is answered 0 (R38). -/
theorem exec_completes_of_memWrite {v : List Byte} {g : Unit → Word} {x y : Byte} (hv : v.length = 1 ∨ v.length = 2)
    (h : exec i s = .next (conclude (memWrite sel v s) g))
    (store : environmentAnswer (storeRequest sel v s) s = .answered 0#32 x y) :
    ∃ t, exec i s = .next t ∧ keepsBlock s t ∧ givesResponse s t (okResponse (g ()))
      ∧ t.trace = s.trace ++ [.write s.handle.addr (selectByte sel :: v) (some 0#32)]
      ∧ t.env = environmentAfter (storeRequest sel v s) s := by
  rw [conclude_memWrite_done hv store] at h
  refine ⟨_, h, ⟨⟨rfl, rfl, rfl, rfl⟩, rfl⟩, ⟨rfl, rfl⟩, ?_, rfl⟩
  simp [traceEntry_store, store, answerStatus]

/-! ### The read operations (O14, O15, O16) -/

/-- Settles O14: on a bound handle RDTEMP is the register read of two bytes. -/
theorem rdtempAnswersTheTemperature : Obligations.RdtempAnswersTheTemperature :=
  fun _ _ _ _ _ _ hb hsel select data =>
    exec_completes_of_memRead (exec_rdtemp_bound (isTemperature_of_ne hsel) hb) select data

/-- Settles O15: RDTEMPF is the same register read, its result in the float form. -/
theorem rdtempfAnswersTheTemperature : Obligations.RdtempfAnswersTheTemperature :=
  fun _ _ _ _ _ _ hb hsel select data =>
    exec_completes_of_memRead (exec_rdtempf_bound (isTemperature_of_ne hsel) hb) select data

/-- Settles O16: RDCFG is the register read of one byte; the answer's second byte is not taken. -/
theorem rdcfgAnswersTheConfiguration : Obligations.RdcfgAnswersTheConfiguration :=
  fun _ _ _ _ _ hb select data => exec_completes_of_memRead (exec_rdcfg_bound hb) select data

/-! ### The write operations (O20, O21, O22) -/

/-- Settles O20: past the guard WRTEMP is the register write of the two encoded bytes. -/
theorem wrtempTransmitsTheEncodedValue : Obligations.WrtempTransmitsTheEncodedValue :=
  fun _ _ _ _ _ hb hsel store => exec_completes_of_memWrite (.inr rfl) (exec_wrtemp_bound hsel hb) store

/-- Settles O21: WRTEMPF of a convertible operand is WRTEMP of the converted value. -/
theorem wrtempfTransmitsTheConvertedValue : Obligations.WrtempfTransmitsTheConvertedValue := by
  intro s sel f v x y hb hsel hf store
  rw [exec_wrtempf_converted hf]
  exact wrtempTransmitsTheEncodedValue s sel v x y hb hsel store

/-- Settles O22: WRCFG is the register write of its operand. -/
theorem wrcfgTransmitsTheByte : Obligations.WrcfgTransmitsTheByte :=
  fun _ _ _ _ hb store => exec_completes_of_memWrite (.inl rfl) (exec_wrcfg_bound hb) store

/-! ### The operations that complete without the bus (O12, O19) -/

/-- Settles O12: INIT's binding, the scratch buffer lost, and the response. -/
theorem initBindsTheHandle : Obligations.InitBindsTheHandle :=
  fun s low => ⟨drawnScratch s.fresh, s.fresh + 1, exec_init low s⟩

/-- Settles O19: the guard of both forms, which loses the scratch buffer and answers OK before any conversion. -/
theorem ambientWriteSucceedsSilently : Obligations.AmbientWriteSucceedsSilently :=
  fun s _ _ hb => ⟨drawnScratch s.fresh, s.fresh + 1, exec_wrtemp_ambient hb, exec_wrtempf_ambient hb⟩

end Sys2Proof.Machine

/-! The statements about the exceptions: what an unbound handle answers, and that every operation reports the first
exception that applies. -/

namespace Sys2Proof.Machine

variable {s t : State} {e : Ending} {sel : Sel}

/-! ### The unbound handle (O13) -/

/-- INIT and the codec operations answer OK in every state, and issue no transaction (R121, R128). -/
theorem exec_answersOk_of_noBus {i : Instr} (hi : (∃ low, i = .init low) ∨ (∃ b0 b1, i = .dectemp b0 b1)
    ∨ (∃ v, i = .enctemp v) ∨ (∃ raw, i = .deccfg raw) ∨ (∃ p, i = .enccfg p)) (s : State) :
    ∃ t r, exec i s = .next t ∧ givesResponse s t (okResponse r) ∧ t.trace = s.trace := by
  rcases hi with ⟨low, rfl⟩ | hcodec
  · exact ⟨_, _, exec_init low s, ⟨rfl, rfl⟩, rfl⟩
  · obtain ⟨r, hr⟩ := exec_codec hcodec s
    exact ⟨_, r, hr, ⟨rfl, rfl⟩, rfl⟩

/-- Settles O13: each of the six bus operations raises UnboundDevice after losing the scratch buffer. -/
theorem unboundHandleAnswersUnbound : Obligations.UnboundHandleAnswersUnbound := by
  intro s hb
  have unbound := onlyAnswersAndScratch_raise .unboundDevice s
  refine ⟨fun sel hsel value f => ?_, ⟨_, exec_rdcfg_unbound hb, unbound⟩,
    fun raw => ⟨_, exec_wrcfg_unbound hb, unbound⟩, fun i hi => exec_answersOk_of_noBus hi s⟩
  obtain ⟨read, readf, write, writef⟩ := exec_temperature_unbound (isTemperature_of_ne hsel) hb value f
  exact ⟨⟨_, read, unbound⟩, ⟨_, readf, unbound⟩, ⟨_, write, unbound⟩, ⟨_, writef, unbound⟩⟩

/-! ### The state in which an ending leaves the block (O25) -/

/-- `t` is a state in which the ending `e` of an operation leaves `s`: one response with the ending's kind and code, or
none from a block that waits for the transport (R156, R178). -/
def EndsAs (s t : State) : Ending → Prop
  | .answers k code => t.busy = s.busy ∧ ∃ r, givesResponse s t { kind := k, code := code, result := r }
  | .waits => t.busy = true ∧ t.responses = s.responses ∧ t.pending = s.pending

theorem endsAs_raise (x : Exception) (s : State) :
    EndsAs s (raise x s) (.answers (exceptionKind x) (exceptionCode x)) := ⟨rfl, _, rfl, rfl⟩

theorem endsAs_raise_loseScratch (x : Exception) (s : State) :
    EndsAs s (raise x (loseScratch s)) (.answers (exceptionKind x) (exceptionCode x)) := ⟨rfl, _, rfl, rfl⟩

theorem endsAs_respondOk_loseScratch (r : Word) (s : State) :
    EndsAs s (respondOk r (loseScratch s)) (.answers .ok 0#32) := ⟨rfl, r, rfl, rfl⟩

/-- A register read ends as its first transaction that is not answered 0 decides (R37, R152). -/
theorem endsAs_memRead (sel : Sel) (n : Nat) (f : Byte × Byte → Word) (s : State) :
    EndsAs s (conclude (memRead sel n s) f) (readEnding sel n s) := by
  rw [readEnding, dataRequest, afterSelect]
  rcases conclude_memRead_cases sel n f s with ⟨select, h⟩ | ⟨st, x, y, hst, select, h⟩ | ⟨x, y, select, data, h⟩
    | ⟨x, y, st, d0, d1, hst, select, data, h⟩ | ⟨x, y, d0, d1, select, data, h⟩ <;> rw [h, select]
  · exact ⟨rfl, rfl, rfl⟩
  · rw [answerEnding, if_neg hst]
    exact ⟨rfl, _, rfl, rfl⟩
  · rw [data]
    exact ⟨rfl, rfl, rfl⟩
  · rw [data, answerEnding, if_pos rfl, answerEnding, if_neg hst]
    exact ⟨rfl, _, rfl, rfl⟩
  · rw [data]
    exact ⟨rfl, _, rfl, rfl⟩

/-- A register write ends as its one transaction decides (R38, R152). -/
theorem endsAs_memWrite {v : List Byte} (hv : v.length = 1 ∨ v.length = 2) (sel : Sel) (g : Unit → Word) (s : State) :
    EndsAs s (conclude (memWrite sel v s) g) (writeEnding sel v s) := by
  rw [writeEnding]
  rcases conclude_memWrite_cases sel v g s hv with ⟨store, h⟩ | ⟨st, x, y, hst, store, h⟩ | ⟨x, y, store, h⟩ <;>
    rw [h, store]
  · exact ⟨rfl, rfl, rfl⟩
  · rw [answerEnding, if_neg hst]
    exact ⟨rfl, _, rfl, rfl⟩
  · exact ⟨rfl, _, rfl, rfl⟩

theorem endsAs_writeTemperature (sel : Sel) (value : Int) (s : State) :
    EndsAs s (writeTemperature sel value s) (temperatureEnding sel value s) := endsAs_memWrite (.inr rfl) sel _ s

/-- The Ambient guard answers OK before anything else of the write (R156 (3)). -/
theorem EndsAs.guarded (h : EndsAs s t e) (sel : Sel) :
    EndsAs s (if sel = .ambient then respondOk 0#32 (loseScratch s) else t) (afterGuard sel e) := by
  unfold afterGuard
  split
  · exact endsAs_respondOk_loseScratch 0#32 s
  · exact h

/-! ### The two checks (42_bus_operations.md rule R120) -/

theorem afterLegal_eq (sel : Sel) (e : Ending) :
    afterLegal sel e = if sel.isTemperature then e else .answers .illegal 0#32 := by cases sel <;> rfl

/-- A bus operation whose body ends as `e` passes or fails the checks in the order of R156 (1), (2). -/
theorem busOperation_endsAs (legal : Bool) {body : State → State} (h : EndsAs s (body s) e) :
    ∃ t, busOperation legal body s = .next t
      ∧ EndsAs s t (if legal then afterBound s e else .answers .illegal 0#32) := by
  rcases busOperation_cases legal body s with ⟨rfl, hs⟩ | ⟨rfl, hb, hs⟩ | ⟨rfl, hb, hs⟩
  · exact ⟨_, hs, endsAs_raise .illegalCommand s⟩
  · rw [if_pos rfl, afterBound, hb]
    exact ⟨_, hs, endsAs_raise_loseScratch .unboundDevice s⟩
  · rw [if_pos rfl, afterBound, hb]
    exact ⟨_, hs, h⟩

theorem temperatureOperation_endsAs (sel : Sel) {body : State → State} (h : EndsAs s (body s) e) :
    ∃ t, busOperation sel.isTemperature body s = .next t ∧ EndsAs s t (afterLegal sel (afterBound s e)) :=
  afterLegal_eq sel _ ▸ busOperation_endsAs sel.isTemperature h

/-! ### Every operation -/

theorem exec_endsAs (i : Instr) (s : State) : ∃ t, exec i s = .next t ∧ EndsAs s t (ending i s) := by
  cases i with
  | init low => exact ⟨_, rfl, rfl, _, rfl, rfl⟩
  | dectemp b0 b1 => exact ⟨_, rfl, rfl, _, rfl, rfl⟩
  | enctemp value => exact ⟨_, rfl, rfl, _, rfl, rfl⟩
  | deccfg raw => exact ⟨_, rfl, rfl, _, rfl, rfl⟩
  | enccfg packed => exact ⟨_, rfl, rfl, _, rfl, rfl⟩
  | rdtemp sel =>
    simp only [exec, execRdtemp]
    exact temperatureOperation_endsAs sel (endsAs_memRead sel 2 _ s)
  | rdtempf sel =>
    simp only [exec, execRdtempf]
    exact temperatureOperation_endsAs sel (endsAs_memRead sel 2 _ s)
  | rdcfg =>
    simp only [exec, execRdcfg]
    exact busOperation_endsAs true (endsAs_memRead .config 1 _ s)
  | wrcfg raw =>
    simp only [exec, execWrcfg]
    exact busOperation_endsAs true (endsAs_memWrite (.inl rfl) .config _ s)
  | wrtemp sel value =>
    simp only [exec, execWrtemp]
    exact temperatureOperation_endsAs sel ((endsAs_writeTemperature sel (int32 value) s).guarded sel)
  | wrtempf sel f =>
    simp only [exec, execWrtempf]
    refine temperatureOperation_endsAs sel (EndsAs.guarded ?_ sel)
    cases f2v s.params.f2v f with
    | none => exact endsAs_raise_loseScratch .illegalCommand s
    | some v => exact endsAs_writeTemperature sel (int32 v) s

/-- Settles O25: each operation passes the checks, the guard and the transactions in the order of R156, and ends as the
first of them that does not let it go on decides. -/
theorem firstExceptionIsReported : Obligations.FirstExceptionIsReported := exec_endsAs

end Sys2Proof.Machine

/-! The statements about reset and the handshake of the command and response ports: what a block that is not ready can
do, when it becomes ready, and the wait for a transport that never answers. -/

namespace Sys2Proof.Machine

variable {s t : State} {i : Instr} {w : Command} {rest : List Input}

/-! ### The ready signal -/

theorem ready_eq_false_iff : ready s = false ↔ s.busy = true ∨ ∃ r, s.pending = some r := by
  cases hb : s.busy <;> cases hp : s.pending <;> simp [ready, hb, hp]

/-- No operation leaves the ready signal high: its response waits to be taken, or the transport has not answered. -/
theorem exec_not_ready (h : exec i s = .next t) : ready t = false := by
  rcases exec_answers h with ⟨r, ⟨_, pending⟩, _⟩ | ⟨busy, _⟩
  · exact ready_eq_false_iff.mpr (.inr ⟨r, pending⟩)
  · exact ready_eq_false_iff.mpr (.inl busy)

/-- An accepted command, legal or not, lowers the ready signal. -/
theorem step_command_not_ready (hr : ready s = true) (hi : s.inputs = .command w :: rest) (h : step s = .next t) :
    ready t = false := by
  cases hd : decode w with
  | ok i => exact exec_not_ready ((step_command hr hi hd).symm.trans h)
  | error e =>
    cases (step_illegal hr hi hd).symm.trans h
    exact ready_eq_false_iff.mpr (.inr ⟨_, raise_pending ..⟩)

/-! ### What a signal leaves as it was -/

@[simp] theorem receive_busy (x : Signal) (s : State) : (receive x s).busy = s.busy := by cases x <;> rfl

@[simp] theorem receive_inputs (x : Signal) (s : State) : (receive x s).inputs = s.inputs := by cases x <;> rfl

@[simp] theorem receive_responses (x : Signal) (s : State) : (receive x s).responses = s.responses := by cases x <;> rfl

@[simp] theorem receive_trace (x : Signal) (s : State) : (receive x s).trace = s.trace := by cases x <;> rfl

/-- Only a take or a reset request empties the response port. -/
theorem take_or_reset_of_receive_ready {x : Signal} (hr : ready s = false) (h : ready (receive x s) = true) :
    x = .take ∨ x = .reset := by
  cases x with
  | take => exact .inl rfl
  | reset => exact .inr rfl
  | measurement r => exact absurd (hr.symm.trans h) Bool.false_ne_true

/-! ### A step of a block that is not ready -/

/-- It changes nothing, or receives the oldest signal. -/
theorem step_not_ready_cases (hr : ready s = false) (h : step s = .next t) :
    t = s ∨ ∃ x rest, firstSignal s.inputs = some (x, rest) ∧ t = receive x { s with inputs := rest } := by
  rcases step_cases s with ⟨_, _, hs⟩ | hs | ⟨x, rest, first, _, _, hs⟩ | ⟨hr', _⟩ | ⟨hr', _⟩
  · cases hs.symm.trans h
  · cases hs.symm.trans h
    exact .inl rfl
  · cases hs.symm.trans h
    exact .inr ⟨x, rest, first, rfl⟩
  · cases hr.symm.trans hr'
  · cases hr.symm.trans hr'

/-- While only commands are offered, a block that is not ready stays as it is. -/
theorem step_onlyCommands (hr : ready s = false) (hc : ∀ x ∈ s.inputs, ∃ w, x = .command w) :
    step s = .next s := by
  refine step_wait hr (firstSignal_none hc) fun _ hreset => ?_
  obtain ⟨w, hw⟩ := hc _ hreset
  cases hw

/-- Every run from a state that steps to itself ends where it began. -/
theorem run_of_step_self {M : Host.Core} {s : M.State} (h : M.step s = .next s) (k : Nat) : M.run k s = .next s := by
  induction k with
  | zero => rfl
  | succ k ih => simp only [Host.Core.run, h, ih]

/-! ### The transport that never answers (O26) -/

/-- Settles O26: the operation ends waiting, so the block is not ready, and with only commands offered each step leaves
it as it is. -/
theorem silentTransportHangsTheBlock : Obligations.SilentTransportHangsTheBlock := by
  intro s i hend hc
  obtain ⟨t, hexec, hwaits⟩ := exec_endsAs i s
  rw [hend] at hwaits
  obtain ⟨busy, responses, _⟩ := hwaits
  have inputs := (exec_params_inputs hexec).2
  have self := step_onlyCommands (exec_not_ready hexec) (inputs ▸ hc)
  exact ⟨t, hexec, busy, responses, inputs, run_of_step_self (M := Sys2Proof.core) self⟩

/-! ### The handshake (O57, O58, O56) -/

/-- Settles O57: a signal leaves `busy` as it was, and of the signals only a take and a reset request empty the response
port. -/
theorem readyIsLowUntilTheResponseIsTaken : Obligations.ReadyIsLowUntilTheResponseIsTaken := by
  refine ⟨fun i s t => exec_not_ready, fun s t w rest hi hr h => step_command_not_ready hr hi h, ?_⟩
  intro s t hr h ht
  rcases step_not_ready_cases hr h with rfl | ⟨x, rest, first, rfl⟩
  · cases hr.symm.trans ht
  · have busy : s.busy = false := (receive_busy x { s with inputs := rest }).symm.trans (ready_iff.mp ht).1
    exact ⟨busy, x, rest, first, take_or_reset_of_receive_ready (s := { s with inputs := rest }) hr ht⟩

/-- Settles O58, by the cases of a step: a signal is taken from among the commands, and only a ready block accepts one,
the oldest. -/
theorem waitingCommandsAreKept : Obligations.WaitingCommandsAreKept := by
  constructor
  · intro s t hr h
    rcases step_not_ready_cases hr h with rfl | ⟨x, rest, first, rfl⟩
    · exact ⟨rfl, rfl, rfl⟩
    · simp [commandsOffered_firstSignal first]
  · intro s t hr h
    rcases step_cases s with ⟨_, _, hs⟩ | hs | ⟨x, rest, first, _, _, hs⟩ | ⟨_, w, rest, e, hi, _, hs⟩
      | ⟨_, w, rest, i, hi, _, hs⟩ <;> rw [hs] at h
    · cases h
    · cases h
      exact .inl rfl
    · cases h
      exact .inl (by simp [commandsOffered_firstSignal first])
    · cases h
      exact .inr ⟨w, by simp [hi, commandsOffered]⟩
    · exact .inr ⟨w, by simp [hi, commandsOffered, (exec_params_inputs h).2]⟩

/-- Settles O56: the block is not ready, so the take is received over the heads of the commands. -/
theorem takenResponseMakesReady : Obligations.TakenResponseMakesReady := by
  intro s r rest hb hp first
  have hr : ready s = false := ready_eq_false_iff.mpr (.inr ⟨r, hp⟩)
  refine ⟨?_, ready_iff.mpr ⟨hb, rfl⟩, commandsOffered_firstSignal first⟩
  exact step_signal first (by simp [hr]) (by simp [hb])

/-! ### One step (O6, O7) -/

/-- Settles O6: a ready block accepts the oldest input, which decodes. -/
theorem stepRunsTheDecodedCommand : Obligations.StepRunsTheDecodedCommand :=
  fun _ _ _ _ hr hi hd => step_command hr hi hd

/-- Settles O7: with no signal among the inputs the wait goes on, and with nothing offered a ready block idles. -/
theorem busyBlockHoldsCommands : Obligations.BusyBlockHoldsCommands :=
  ⟨fun _ hr hc => step_onlyCommands hr hc, fun _ hr hi => step_idle hr hi⟩

/-! ### Reset (O8, O10) -/

/-- Settles O8: with no operation in flight a reset request at the head of the inputs is received, ready or not. -/
theorem resetRequestUnbinds : Obligations.ResetRequestUnbinds := by
  refine ⟨fun s rest hb hi => ?_, fun s hb hreset => step_resetInFlight hb hreset⟩
  have received : step s = .next (resetHandle { s with inputs := rest }) :=
    step_signal (hi ▸ firstSignal_head .reset rest) (fun _ => hi) (by simp [hb])
  exact ⟨_, received, rfl, ready_iff.mpr ⟨hb, rfl⟩, rfl, rfl, rfl, rfl, rfl⟩

/-- Settles O10: each of the four is a field of the state after construction. -/
theorem resetStateIsUnboundAndIdle : Obligations.ResetStateIsUnboundAndIdle :=
  ⟨rfl, rfl, rfl, ready_iff.mpr ⟨rfl, rfl⟩⟩

end Sys2Proof.Machine
